-- ==== Sys2Proof/Word.lean ====
section
/-! DEFINITION. The widths of the block's values: bytes (R21), 16-bit words (R24, R80), 12-bit addresses (R23, R81)
and the 4-bit fields of an opcode (R7). All values are unsigned (R7). -/

namespace Sys2Proof

/-- An unsigned 8-bit value: a V register, a timer, a memory byte (R21, R26, R50). -/
abbrev Byte := BitVec 8

/-- An unsigned 16-bit value: an opcode, the pc, a stack entry (R24, R25, R80). -/
abbrev Word := BitVec 16

/-- A 12-bit address: the field NNN and the register I (R23, R81). -/
abbrev Addr := BitVec 12

/-- A 4-bit value: a register index, a key, the row count N (R7, R81). -/
abbrev Nibble := BitVec 4

end Sys2Proof
end

