-- ==== Sys2Proof/Config.lean ====
section
/-! DEFINITION. What is fixed for a machine (the parameters of R6), what the environment supplies to a step (R9, R110,
R262), and the free values: the bytes a launch leaves in memory that nothing has loaded (`memInit`, D4) and the
environment's inputs (`envAt`), both without a body, so that no proof can see them. -/

namespace Sys2Proof

/-- `SHIFT_SOURCE` (R6, D7): the operand that 8XY6 and 8XYE shift. -/
inductive ShiftSource where
  /-- The original COSMAC VIP behaviour, the default. -/
  | vy
  /-- The alternate quirk. -/
  | vx
  deriving DecidableEq, Repr, Inhabited

/-- `VF_ORDER` (R6, R117, D6): which write comes last when an ALU instruction that sets a flag has VF as destination. -/
inductive VfOrder where
  /-- The default. -/
  | flagLast
  | resultLast
  deriving DecidableEq, Repr, Inhabited

/-- `KEY_OOB` (R6, R220, D10): what EX9E and EXA1 see for a key index of 16 or more. -/
inductive KeyOob where
  /-- The default: an unconstrained boolean of the step. -/
  | draw
  | lowNibble
  deriving DecidableEq, Repr, Inhabited

/-- `REG_INIT` (R6, R35, D3): the reset value of V0 to VF, I, DT and ST. -/
inductive RegInit where
  /-- The default. -/
  | zero
  /-- Any value of the register's width: the launch supplies it. -/
  | any
  deriving DecidableEq, Repr, Inhabited

/-- The parameters of R6 that a rule reads while the machine runs. They are fixed for a run and no program can reach
them (R34); `State` carries them so that a statement about every state is one about every setting. -/
structure Params where
  /-- `STACK_DEPTH`, at least 1 (D8). -/
  stackDepth : Nat
  shiftSource : ShiftSource
  vfOrder : VfOrder
  keyOob : KeyOob
  regInit : RegInit
  deriving DecidableEq, Repr, Inhabited

/-- The keypad snapshot: one boolean for each key 0x0 to 0xF, true where the key is pressed (R31, R254). -/
abbrev Keypad := Vector Bool 16

/-- What the host gives a reset (R270): the font, the program image, the launch content of memory (`MEM_INIT`: the
bytes listed; a byte not listed is `Config.memInit`), and the register values that a reset under `REG_INIT = ANY`
leaves. -/
structure Launch where
  font : Vector Byte 80
  program : List Byte
  memInit : List Host.Cell
  v : Vector Byte 16
  i : Addr
  dt : Byte
  st : Byte
  deriving DecidableEq, Repr, Inhabited

/-- The agent that takes a step, and what the host does when the turn is its own (R9, R262). -/
inductive Turn where
  /-- The CPU: one instruction-loop iteration (R110). -/
  | cpu
  /-- The timer driver: one tick (R251). -/
  | tick
  /-- The host: quit or disconnect (R246). -/
  | quit
  /-- The host: reset (R270). -/
  | reset (l : Launch)
  deriving DecidableEq, Repr, Inhabited

/-- What the environment supplies to one step: whose turn it is (R63) and the inputs of a CPU step (R110). -/
structure Env where
  turn : Turn
  /-- The keypad snapshot of the iteration (R31). -/
  keys : Keypad
  /-- The random byte of CXNN (R162, D28). -/
  rnd : Byte
  /-- What EX9E and EXA1 see for a key index of 16 or more under `KEY_OOB = DRAW` (R220, D10). -/
  oobKey : Bool
  /-- Which key `choose` takes among those newly pressed, where it is one of them (R225, D11). -/
  choice : Nibble
  deriving DecidableEq, Repr, Inhabited

namespace Config

/-- `MEM_SIZE` (R6, R50). -/
abbrev memSize : Nat := 4096

/-- `PROGRAM_BASE`, the load address of the program (R6, R258). -/
abbrev programBase : Nat := 0x200

/-- `ENTRY_PC`, the pc after reset (R6, D2). -/
abbrev entryPc : Word := 0x200

/-- The largest program image, 0x1000 - 0x200 bytes (R258, D22). -/
abbrev maxProgram : Nat := 3584

/-- The settings this hardware takes by default (R6, third column). -/
def defaults : Params :=
  { stackDepth := 16, shiftSource := .vy, vfOrder := .flagLast, keyOob := .draw, regInit := .zero }

/-- FREE VALUE (D4, log entry 3). `MEM_INIT`: the byte at address `a` after a launch, where neither the font, the
program nor the launch content covers it. No proof may assume it (R271). -/
opaque memInit : Nat → Byte

/-- FREE VALUE (D10, D11, D19, D20, D24, D28, log entry 4). The environment's inputs for the `n`-th step that the
state's own script does not cover: whose turn it is, the keypad, the random byte, the choices. -/
opaque envAt : Nat → Env

end Config

end Sys2Proof
end

