-- ==== Sys2Proof/Syntax.lean ====
section
/-! DEFINITION. The 34 instructions of the opcode map (R84), one constructor a row of spec/opcode_table.json. A field
has the width its bits have in the word (R81, R82), so every term of `Instr` is an instruction of the table. An unknown
word (R85) is no instruction: the decoder answers `Decoded.unknown` for it. -/

namespace Sys2Proof

/-- One instruction of R84. `x` and `y` select V registers, `nn` is the immediate byte, `nnn` the address, `n` the
row count. -/
inductive Instr where
  /-- `CLS`, 00E0 (R202). -/
  | cls
  /-- `RET`, 00EE (R130). -/
  | ret
  /-- `JP addr`, 1NNN (R131). -/
  | jp (nnn : Addr)
  /-- `CALL addr`, 2NNN (R132). -/
  | call (nnn : Addr)
  /-- `SE Vx, byte`, 3XNN (R133). -/
  | seImm (x : Nibble) (nn : Byte)
  /-- `SNE Vx, byte`, 4XNN (R134). -/
  | sneImm (x : Nibble) (nn : Byte)
  /-- `SE Vx, Vy`, 5XY0 (R135). -/
  | seReg (x y : Nibble)
  /-- `LD Vx, byte`, 6XNN (R151). -/
  | ldImm (x : Nibble) (nn : Byte)
  /-- `ADD Vx, byte`, 7XNN (R152). -/
  | addImm (x : Nibble) (nn : Byte)
  /-- `LD Vx, Vy`, 8XY0 (R153). -/
  | ldReg (x y : Nibble)
  /-- `OR Vx, Vy`, 8XY1 (R154). -/
  | orReg (x y : Nibble)
  /-- `AND Vx, Vy`, 8XY2 (R155). -/
  | andReg (x y : Nibble)
  /-- `XOR Vx, Vy`, 8XY3 (R156). -/
  | xorReg (x y : Nibble)
  /-- `ADD Vx, Vy`, 8XY4 (R157). -/
  | addReg (x y : Nibble)
  /-- `SUB Vx, Vy`, 8XY5 (R158). -/
  | sub (x y : Nibble)
  /-- `SHR Vx {, Vy}`, 8XY6 (R159). -/
  | shr (x y : Nibble)
  /-- `SUBN Vx, Vy`, 8XY7 (R160). -/
  | subn (x y : Nibble)
  /-- `SHL Vx {, Vy}`, 8XYE (R161). -/
  | shl (x y : Nibble)
  /-- `SNE Vx, Vy`, 9XY0 (R136). -/
  | sneReg (x y : Nibble)
  /-- `LD I, addr`, ANNN (R180). -/
  | ldI (nnn : Addr)
  /-- `JP V0, addr`, BNNN (R137). -/
  | jpV0 (nnn : Addr)
  /-- `RND Vx, byte`, CXNN (R162). -/
  | rnd (x : Nibble) (nn : Byte)
  /-- `DRW Vx, Vy, nibble`, DXYN (R203). -/
  | drw (x y n : Nibble)
  /-- `SKP Vx`, EX9E (R221). -/
  | skp (x : Nibble)
  /-- `SKNP Vx`, EXA1 (R222). -/
  | sknp (x : Nibble)
  /-- `LD Vx, DT`, FX07 (R223). -/
  | ldVxDt (x : Nibble)
  /-- `LD Vx, K`, FX0A (R224). -/
  | ldVxK (x : Nibble)
  /-- `LD DT, Vx`, FX15 (R226). -/
  | ldDtVx (x : Nibble)
  /-- `LD ST, Vx`, FX18 (R227). -/
  | ldStVx (x : Nibble)
  /-- `ADD I, Vx`, FX1E (R181). -/
  | addI (x : Nibble)
  /-- `LD F, Vx`, FX29 (R182). -/
  | ldF (x : Nibble)
  /-- `LD B, Vx`, FX33 (R183). -/
  | ldB (x : Nibble)
  /-- `LD [I], Vx`, FX55 (R184). -/
  | ldMemVx (x : Nibble)
  /-- `LD Vx, [I]`, FX65 (R185). -/
  | ldVxMem (x : Nibble)
  deriving DecidableEq, Repr, Inhabited

end Sys2Proof
end

