-- ==== Sys2Proof/WellFormed.lean ====
section
/-! DEFINITION. The checks on what reaches the machine from outside: an instruction's fields, a program image (D22) and
the parameters (D8). A field of `Instr` is a bit vector of the field's own width, so the first check refuses no term;
it stands here because statements about instructions name it. -/

namespace Sys2Proof

/-- Every field lies in the range its bits give it: x, y, n below 16, nn below 256, nnn below 4096 (R81, R82). -/
def Instr.wellFormed : Instr → Bool
  | .cls | .ret => true
  | .jp nnn | .call nnn | .ldI nnn | .jpV0 nnn => nnn.toNat < 4096
  | .seImm x nn | .sneImm x nn | .ldImm x nn | .addImm x nn | .rnd x nn => x.toNat < 16 && nn.toNat < 256
  | .seReg x y | .ldReg x y | .orReg x y | .andReg x y | .xorReg x y | .addReg x y | .sub x y | .shr x y
  | .subn x y | .shl x y | .sneReg x y => x.toNat < 16 && y.toNat < 16
  | .drw x y n => x.toNat < 16 && y.toNat < 16 && n.toNat < 16
  | .skp x | .sknp x | .ldVxDt x | .ldVxK x | .ldDtVx x | .ldStVx x | .addI x | .ldF x | .ldB x | .ldMemVx x
  | .ldVxMem x => x.toNat < 16

/-- The program image fits between 0x200 and the end of memory; a longer one is refused (R258, R270, D22). -/
def programFits (program : List Byte) : Bool := program.length ≤ Config.maxProgram

/-- `STACK_DEPTH` is at least 1 (D8); every other parameter is any value of its type (R6). -/
def Params.wellFormed (p : Params) : Bool := 1 ≤ p.stackDepth

end Sys2Proof
end

