-- ==== Sys2Proof/Decode.lean ====
section
/-! DEFINITION. The encoding (R80 to R87): the fields of an opcode word, the decoder, the encoder, and the rows of the
opcode table with their mask and fixed bits. Fetch lays the word together from two bytes, high byte first (R55). -/

namespace Sys2Proof

/-- What a word decodes to: one instruction of R84, or UNKNOWN, named with its word (R85). -/
inductive Decoded where
  | known (i : Instr)
  | unknown (op : Word)
  deriving DecidableEq, Repr, Inhabited

/-- n3 = op[15:12], the family (R7, R83). -/
def opFamily (op : Word) : Nibble := op.extractLsb' 12 4

/-- x = op[11:8] (R81). -/
def opX (op : Word) : Nibble := op.extractLsb' 8 4

/-- y = op[7:4] (R81). -/
def opY (op : Word) : Nibble := op.extractLsb' 4 4

/-- N = op[3:0] (R81). -/
def opN (op : Word) : Nibble := op.extractLsb' 0 4

/-- NN = op[7:0] (R81). -/
def opNN (op : Word) : Byte := op.extractLsb' 0 8

/-- NNN = op[11:0] (R81). -/
def opNNN (op : Word) : Addr := op.extractLsb' 0 12

/-- Family 8: the operation is n0 (R83). -/
def decodeAlu (op : Word) : Decoded :=
  match opN op with
  | 0x0#4 => .known (.ldReg (opX op) (opY op))
  | 0x1#4 => .known (.orReg (opX op) (opY op))
  | 0x2#4 => .known (.andReg (opX op) (opY op))
  | 0x3#4 => .known (.xorReg (opX op) (opY op))
  | 0x4#4 => .known (.addReg (opX op) (opY op))
  | 0x5#4 => .known (.sub (opX op) (opY op))
  | 0x6#4 => .known (.shr (opX op) (opY op))
  | 0x7#4 => .known (.subn (opX op) (opY op))
  | 0xE#4 => .known (.shl (opX op) (opY op))
  | _ => .unknown op

/-- Family E: the operation is the low byte (R83). -/
def decodeKey (op : Word) : Decoded :=
  match opNN op with
  | 0x9E#8 => .known (.skp (opX op))
  | 0xA1#8 => .known (.sknp (opX op))
  | _ => .unknown op

/-- Family F: the operation is the low byte (R83). -/
def decodeMisc (op : Word) : Decoded :=
  match opNN op with
  | 0x07#8 => .known (.ldVxDt (opX op))
  | 0x0A#8 => .known (.ldVxK (opX op))
  | 0x15#8 => .known (.ldDtVx (opX op))
  | 0x18#8 => .known (.ldStVx (opX op))
  | 0x1E#8 => .known (.addI (opX op))
  | 0x29#8 => .known (.ldF (opX op))
  | 0x33#8 => .known (.ldB (opX op))
  | 0x55#8 => .known (.ldMemVx (opX op))
  | 0x65#8 => .known (.ldVxMem (opX op))
  | _ => .unknown op

/-- The decode procedure of R83: the family by the top nibble, then a secondary field in families 0, 5, 8, 9, E, F. -/
def decode (op : Word) : Decoded :=
  match opFamily op with
  | 0x0#4 => if op = 0x00E0#16 then .known .cls else if op = 0x00EE#16 then .known .ret else .unknown op
  | 0x1#4 => .known (.jp (opNNN op))
  | 0x2#4 => .known (.call (opNNN op))
  | 0x3#4 => .known (.seImm (opX op) (opNN op))
  | 0x4#4 => .known (.sneImm (opX op) (opNN op))
  | 0x5#4 => if opN op = 0x0#4 then .known (.seReg (opX op) (opY op)) else .unknown op
  | 0x6#4 => .known (.ldImm (opX op) (opNN op))
  | 0x7#4 => .known (.addImm (opX op) (opNN op))
  | 0x8#4 => decodeAlu op
  | 0x9#4 => if opN op = 0x0#4 then .known (.sneReg (opX op) (opY op)) else .unknown op
  | 0xA#4 => .known (.ldI (opNNN op))
  | 0xB#4 => .known (.jpV0 (opNNN op))
  | 0xC#4 => .known (.rnd (opX op) (opNN op))
  | 0xD#4 => .known (.drw (opX op) (opY op) (opN op))
  | 0xE#4 => decodeKey op
  | _ => decodeMisc op

/-- The word of two consecutive bytes, high byte first (R55, R111). -/
def wordOfBytes (hi lo : Byte) : Word := hi ++ lo

/-- The high byte of a word: it lies at the lower address (R55). -/
def highByte (op : Word) : Byte := op.extractLsb' 8 8

/-- The low byte of a word: it lies at the higher address (R55). -/
def lowByte (op : Word) : Byte := op.extractLsb' 0 8

/-- The instruction in two consecutive bytes of memory (R55, R80, R83). -/
def decodeBytes (hi lo : Byte) : Decoded := decode (wordOfBytes hi lo)

/-- A word of four nibbles, n3 first (R7). -/
def wordXYN (n3 x y n : Nibble) : Word := n3 ++ x ++ y ++ n

/-- A word of the form n3, x, NN (R81). -/
def wordXNN (n3 x : Nibble) (nn : Byte) : Word := n3 ++ x ++ nn

/-- A word of the form n3, NNN (R81). -/
def wordNNN (n3 : Nibble) (nnn : Addr) : Word := n3 ++ nnn

/-- The word of an instruction, by the `pattern` column of R84. -/
def encode : Instr → Word
  | .cls => 0x00E0
  | .ret => 0x00EE
  | .jp nnn => wordNNN 0x1 nnn
  | .call nnn => wordNNN 0x2 nnn
  | .seImm x nn => wordXNN 0x3 x nn
  | .sneImm x nn => wordXNN 0x4 x nn
  | .seReg x y => wordXYN 0x5 x y 0x0
  | .ldImm x nn => wordXNN 0x6 x nn
  | .addImm x nn => wordXNN 0x7 x nn
  | .ldReg x y => wordXYN 0x8 x y 0x0
  | .orReg x y => wordXYN 0x8 x y 0x1
  | .andReg x y => wordXYN 0x8 x y 0x2
  | .xorReg x y => wordXYN 0x8 x y 0x3
  | .addReg x y => wordXYN 0x8 x y 0x4
  | .sub x y => wordXYN 0x8 x y 0x5
  | .shr x y => wordXYN 0x8 x y 0x6
  | .subn x y => wordXYN 0x8 x y 0x7
  | .shl x y => wordXYN 0x8 x y 0xE
  | .sneReg x y => wordXYN 0x9 x y 0x0
  | .ldI nnn => wordNNN 0xA nnn
  | .jpV0 nnn => wordNNN 0xB nnn
  | .rnd x nn => wordXNN 0xC x nn
  | .drw x y n => wordXYN 0xD x y n
  | .skp x => wordXNN 0xE x 0x9E
  | .sknp x => wordXNN 0xE x 0xA1
  | .ldVxDt x => wordXNN 0xF x 0x07
  | .ldVxK x => wordXNN 0xF x 0x0A
  | .ldDtVx x => wordXNN 0xF x 0x15
  | .ldStVx x => wordXNN 0xF x 0x18
  | .addI x => wordXNN 0xF x 0x1E
  | .ldF x => wordXNN 0xF x 0x29
  | .ldB x => wordXNN 0xF x 0x33
  | .ldMemVx x => wordXNN 0xF x 0x55
  | .ldVxMem x => wordXNN 0xF x 0x65

/-- One row of spec/opcode_table.json: a word w is the row's instruction when w AND mask = bits. -/
structure OpcodeRow where
  mnemonic : String
  bits : Word
  mask : Word
  deriving DecidableEq, Repr, Inhabited

/-- The row of an instruction in spec/opcode_table.json: its `match` and `mask`. -/
def Instr.row : Instr → OpcodeRow
  | .cls => ⟨"CLS", 0x00E0, 0xFFFF⟩
  | .ret => ⟨"RET", 0x00EE, 0xFFFF⟩
  | .jp _ => ⟨"JP", 0x1000, 0xF000⟩
  | .call _ => ⟨"CALL", 0x2000, 0xF000⟩
  | .seImm _ _ => ⟨"SE_IMM", 0x3000, 0xF000⟩
  | .sneImm _ _ => ⟨"SNE_IMM", 0x4000, 0xF000⟩
  | .seReg _ _ => ⟨"SE_REG", 0x5000, 0xF00F⟩
  | .ldImm _ _ => ⟨"LD_IMM", 0x6000, 0xF000⟩
  | .addImm _ _ => ⟨"ADD_IMM", 0x7000, 0xF000⟩
  | .ldReg _ _ => ⟨"LD_REG", 0x8000, 0xF00F⟩
  | .orReg _ _ => ⟨"OR", 0x8001, 0xF00F⟩
  | .andReg _ _ => ⟨"AND", 0x8002, 0xF00F⟩
  | .xorReg _ _ => ⟨"XOR", 0x8003, 0xF00F⟩
  | .addReg _ _ => ⟨"ADD_REG", 0x8004, 0xF00F⟩
  | .sub _ _ => ⟨"SUB", 0x8005, 0xF00F⟩
  | .shr _ _ => ⟨"SHR", 0x8006, 0xF00F⟩
  | .subn _ _ => ⟨"SUBN", 0x8007, 0xF00F⟩
  | .shl _ _ => ⟨"SHL", 0x800E, 0xF00F⟩
  | .sneReg _ _ => ⟨"SNE_REG", 0x9000, 0xF00F⟩
  | .ldI _ => ⟨"LD_I", 0xA000, 0xF000⟩
  | .jpV0 _ => ⟨"JP_V0", 0xB000, 0xF000⟩
  | .rnd _ _ => ⟨"RND", 0xC000, 0xF000⟩
  | .drw _ _ _ => ⟨"DRW", 0xD000, 0xF000⟩
  | .skp _ => ⟨"SKP", 0xE09E, 0xF0FF⟩
  | .sknp _ => ⟨"SKNP", 0xE0A1, 0xF0FF⟩
  | .ldVxDt _ => ⟨"LD_VX_DT", 0xF007, 0xF0FF⟩
  | .ldVxK _ => ⟨"LD_VX_K", 0xF00A, 0xF0FF⟩
  | .ldDtVx _ => ⟨"LD_DT_VX", 0xF015, 0xF0FF⟩
  | .ldStVx _ => ⟨"LD_ST_VX", 0xF018, 0xF0FF⟩
  | .addI _ => ⟨"ADD_I", 0xF01E, 0xF0FF⟩
  | .ldF _ => ⟨"LD_F", 0xF029, 0xF0FF⟩
  | .ldB _ => ⟨"LD_B", 0xF033, 0xF0FF⟩
  | .ldMemVx _ => ⟨"LD_MEM_VX", 0xF055, 0xF0FF⟩
  | .ldVxMem _ => ⟨"LD_VX_MEM", 0xF065, 0xF0FF⟩

/-- One instruction of each row of spec/opcode_table.json, in its order. -/
def oneOfEach : List Instr :=
  [.cls, .ret, .jp 0, .call 0, .seImm 0 0, .sneImm 0 0, .seReg 0 0, .ldImm 0 0, .addImm 0 0, .ldReg 0 0, .orReg 0 0,
   .andReg 0 0, .xorReg 0 0, .addReg 0 0, .sub 0 0, .shr 0 0, .subn 0 0, .shl 0 0, .sneReg 0 0, .ldI 0, .jpV0 0,
   .rnd 0 0, .drw 0 0 0, .skp 0, .sknp 0, .ldVxDt 0, .ldVxK 0, .ldDtVx 0, .ldStVx 0, .addI 0, .ldF 0, .ldB 0,
   .ldMemVx 0, .ldVxMem 0]

/-- The 34 rows of spec/opcode_table.json, in its order. -/
def opcodeRows : List OpcodeRow := oneOfEach.map Instr.row

/-- The instruction of a word given as a number, bit 0 its least significant bit, and none where the decoder answers
UNKNOWN: the two bytes go to the decoder as memory holds them, high byte first (R55). A number of more than 16 bits is
no word of this machine (R80). -/
def decodeTableWord (nbits w : Nat) : Option Instr :=
  if nbits ≤ 16 ∧ w < 2 ^ nbits then
    match decodeBytes (BitVec.ofNat 8 (w / 256)) (BitVec.ofNat 8 w) with
    | .known i => some i
    | .unknown _ => none
  else none

end Sys2Proof
end

