-- ==== Sys2Proof/Machine/State.lean ====
section
/-! DEFINITION. The architectural state (R20), as plain data, with the run state (R30) and the fault record (R32); the
reasons a step can stop; and the state right after reset (R35). The last three fields of `State` are the model's own
(log entries 2 and 4): the parameters of R6, and the environment's inputs for the steps to come. -/

namespace Sys2Proof.Machine

/-- The error kinds of R241, numbered as there; the first three are the fatal ones. -/
inductive ErrorKind where
  | memoryOutOfBounds
  | stackUnderflow
  | stackOverflow
  | unknownOpcode
  | inputSourceDisconnected
  deriving DecidableEq, Repr, Inhabited

/-- What a fatal fault leaves for the host to report (R32, D16). -/
structure FaultRecord where
  kind : ErrorKind
  /-- The address the faulting instruction was fetched from; for a fetch fault, the pc. -/
  instrAddr : Word
  /-- The opcode; none for a fetch fault. -/
  opcode : Option Word
  /-- The first out-of-range address for MemoryOutOfBounds; none otherwise. -/
  addr : Option Word
  deriving DecidableEq, Repr, Inhabited

/-- The run state (R30). -/
inductive Run where
  /-- The CPU fetches and executes on its next step. -/
  | running
  /-- FX0A waits for a key press, whose key goes to Vx (R224, R225). -/
  | awaitingKey (x : Nibble)
  /-- A fatal fault occurred (R247). -/
  | halted (r : FaultRecord)
  /-- The host signalled quit: a clean end (R246). -/
  | terminated
  deriving DecidableEq, Repr, Inhabited

/-- The framebuffer: 32 rows of 64 pixels, row-major (R28). -/
abbrev Frame := Vector (Vector Bool 64) 32

/-- Every pixel clear. -/
def Frame.blank : Frame := Vector.replicate 32 (Vector.replicate 64 false)

/-- The 4096-byte memory (R50), as (address, byte) pairs in rising order of addresses. An address that is not listed
holds what the launch left there (Machine/Memory.lean). -/
abbrev Memory := List Host.Cell

/-- The state of the block (R20). -/
structure State where
  /-- Memory (R29, R50). -/
  mem : Memory
  /-- V0 to VF (R21); VF is also the flag register (R22). -/
  v : Vector Byte 16
  /-- The address register I, stored in its 12 meaningful bits (R23). -/
  i : Addr
  /-- The program counter, 16 bits, not wrapped by the sequential advance (R24). -/
  pc : Word
  /-- The return addresses, the most recently pushed last (R25). -/
  stack : List Word
  /-- The delay timer DT (R26). -/
  dt : Byte
  /-- The sound timer ST (R27). -/
  st : Byte
  /-- The framebuffer (R28). -/
  fb : Frame
  /-- The run state (R30). -/
  run : Run
  /-- The keypad snapshot of the previous CPU step (R31). -/
  keysPrev : Keypad
  /-- The model's own: the parameters of R6, which no step changes (log entry 2). -/
  cfg : Params
  /-- The model's own: the environment's inputs for the coming steps, the next step's first (log entry 4). -/
  script : List Env
  /-- The model's own: the number of steps taken, which picks the free inputs beyond the script (log entry 4). -/
  draws : Nat
  deriving DecidableEq, Repr, Inhabited

/-- Why a step stops with a fault. -/
inductive Fault where
  /-- Raised by `step` alone, in a state that is Halted, for every turn but the host's reset: no agent has a step there
  (R119, R248). The fault itself was taken by the step before, as a next state with this record (R247). Safe: the
  hardware takes no step either. -/
  | halted (r : FaultRecord)
  deriving DecidableEq, Repr, Inhabited

/-- Why a step is refused. -/
inductive Refusal where
  /-- Raised by an arm of `exec` whose instruction has no meaning yet; no arm is left so. Safe. -/
  | notModelled (mnemonic : String)
  /-- Raised by `step` alone, in a state that is Terminated, for every turn but the host's reset: the run has ended
  cleanly and no agent has a step (R119, R246). Safe: the hardware takes no step either. -/
  | terminated
  /-- Raised by the host's reset when the program image is longer than 3584 bytes: the load is refused and no initial
  state exists (R258, R270). Safe: the hardware does not start either. -/
  | loadRefused
  deriving DecidableEq, Repr, Inhabited

/-- The machine right after reset (R35, R270) with the default parameters (R6) and no program image: registers 0
(`REG_INIT = ZERO`), pc 0x200, stack empty, framebuffer clear, Running, no key down. Memory lists nothing: the font and
the launch content are what unlisted addresses hold. -/
def State.reset : State :=
  { mem := []
    v := Vector.replicate 16 0
    i := 0
    pc := Config.entryPc
    stack := []
    dt := 0
    st := 0
    fb := Frame.blank
    run := .running
    keysPrev := Vector.replicate 16 false
    cfg := Config.defaults
    script := []
    draws := 0 }

end Sys2Proof.Machine
end

