-- ==== Sys2Proof/Machine/Memory.lean ====
section
/-! DEFINITION. Memory (R50 to R60): what an unlisted address holds, the read and the write of a byte, and the one
canonical form of the list. Every instruction checks its addresses before its first access (R59), so neither the read
nor the write faults here; `inMemory` is the check. -/

namespace Sys2Proof.Machine

/-- The 80 bytes of the default `FONT`, glyphs 0 to 7 (R53; log entry 5). -/
def fontLow : List Byte :=
  [0xF0, 0x90, 0x90, 0x90, 0xF0, 0x20, 0x60, 0x20, 0x20, 0x70, 0xF0, 0x10, 0xF0, 0x80, 0xF0, 0xF0, 0x10, 0xF0, 0x10, 0xF0,
   0x90, 0x90, 0xF0, 0x10, 0x10, 0xF0, 0x80, 0xF0, 0x10, 0xF0, 0xF0, 0x80, 0xF0, 0x90, 0xF0, 0xF0, 0x10, 0x20, 0x40, 0x40]

/-- Glyphs 8 to F of the default `FONT` (R53). -/
def fontHigh : List Byte :=
  [0xF0, 0x90, 0xF0, 0x90, 0xF0, 0xF0, 0x90, 0xF0, 0x10, 0xF0, 0xF0, 0x90, 0xF0, 0x90, 0x90, 0xE0, 0x90, 0xE0, 0x90, 0xE0,
   0xF0, 0x80, 0x80, 0x80, 0xF0, 0xE0, 0x90, 0x90, 0x90, 0xE0, 0xF0, 0x80, 0xF0, 0x80, 0xF0, 0xF0, 0x80, 0xF0, 0x80, 0x80]

/-- `FONT_BASE`, the address of the font table (R6, R53). -/
def fontBase : Nat := 0x000

/-- The known byte of an address that nothing has written: the font's, and none outside the font (R35, R53). -/
def resetByte (a : Nat) : Option Byte := if fontBase ≤ a then (fontLow ++ fontHigh)[a - fontBase]? else none

/-- The byte listed for address `a`. -/
def Memory.listed : Memory → Nat → Option Byte
  | [], _ => none
  | (b, w) :: m, a => if a = b then some w else Memory.listed m a

/-- The byte known to be at address `a`: the listed one, else the font's; none where only the launch knows (D4). -/
def Memory.known (m : Memory) (a : Nat) : Option Byte := (m.listed a).or (resetByte a)

/-- The byte at address `a` (R51). What an unlisted address reads as is decided here: the font's byte, and outside the
font the free byte `Config.memInit a` (D4). -/
def Memory.byte (m : Memory) (a : Nat) : Byte := (m.known a).getD (Config.memInit a)

/-- The list with the entry of address `a` set to `w`, in its place. -/
def Memory.insert : Memory → Nat → Byte → Memory
  | [], a, w => [(a, w)]
  | (b, u) :: m, a, w =>
    if a < b then (a, w) :: (b, u) :: m else if a = b then (a, w) :: m else (b, u) :: Memory.insert m a w

/-- The list without any entry of address `a`. -/
def Memory.erase : Memory → Nat → Memory
  | [], _ => []
  | (b, u) :: m, a => if a = b then Memory.erase m a else (b, u) :: Memory.erase m a

/-- Write one byte (R52). Writing what the unlisted address is known to hold removes its entry. An address outside
memory is never written (R52); the instructions check before they come here. -/
def Memory.write (m : Memory) (a : Nat) (w : Byte) : Memory :=
  if a < Config.memSize then (if resetByte a = some w then m.erase a else m.insert a w) else m

/-- Write bytes at consecutive addresses from `a`, in order. -/
def Memory.writeBytes : Memory → Nat → List Byte → Memory
  | m, _, [] => m
  | m, a, w :: ws => Memory.writeBytes (m.write a w) (a + 1) ws

/-- Write each listed byte at its address, in order: the launch content of a reset (R270). -/
def Memory.writeCells (m : Memory) (cells : List Host.Cell) : Memory :=
  cells.foldl (fun m c => m.write c.1 c.2) m

/-- The canonical form: addresses strictly rising and inside memory, no entry equal to what the unlisted address is
known to hold. -/
abbrev Memory.wf (m : Memory) : Prop :=
  m.Pairwise (fun c d => c.1 < d.1) ∧ ∀ c ∈ m, c.1 < Config.memSize ∧ resetByte c.1 ≠ some c.2

/-- The `n` bytes from address `a` on lie inside memory; no access wraps (R51, R52, R58). No byte at all always does. -/
def inMemory (a n : Nat) : Bool := n = 0 || a + n ≤ Config.memSize

end Sys2Proof.Machine
end

