-- ==== Sys2Proof/Machine/Ops.lean ====
section
/-! DEFINITION. The named operations over the state: the one update of each component, the registers, the stack (R25),
the pixels (R28, R200), the pc (R116, R138), taking a fatal fault (R247), and the outputs (R33). There is no return from
a fault: nothing but the host's reset leaves Halted (R248), so no operation stands beside `takeFault` for it. -/

namespace Sys2Proof.Machine

def State.setMem (s : State) (m : Memory) : State := { s with mem := m }
def State.setI (s : State) (a : Addr) : State := { s with i := a }
def State.setPc (s : State) (a : Word) : State := { s with pc := a }
def State.setStack (s : State) (l : List Word) : State := { s with stack := l }
def State.setDt (s : State) (b : Byte) : State := { s with dt := b }
def State.setSt (s : State) (b : Byte) : State := { s with st := b }
def State.setFb (s : State) (f : Frame) : State := { s with fb := f }
def State.setRun (s : State) (r : Run) : State := { s with run := r }
def State.setKeysPrev (s : State) (k : Keypad) : State := { s with keysPrev := k }

/-- The register file as a whole. -/
def State.setRegs (s : State) (v : Vector Byte 16) : State := { s with v := v }

/-- `V[x]` (R8, R21). -/
def State.readV (s : State) (x : Nibble) : Byte := s.v[x.toNat]'x.isLt

/-- `V[x] <- b` (R8, R21). -/
def State.writeV (s : State) (x : Nibble) (b : Byte) : State := s.setRegs (s.v.set x.toNat b x.isLt)

/-- The byte at an address (R51). -/
def State.byteAt (s : State) (a : Nat) : Byte := s.mem.byte a

/-- `Push(a)` where the stack has room; none where R25 raises StackOverflow. -/
def State.push (s : State) (a : Word) : Option State :=
  if s.stack.length = s.cfg.stackDepth then none else some (s.setStack (s.stack ++ [a]))

/-- `Pop()`: the entry most recently pushed and the state without it; none where R25 raises StackUnderflow. -/
def State.pop (s : State) : Option (Word × State) :=
  match s.stack.getLast? with
  | none => none
  | some a => some (a, s.setStack s.stack.dropLast)

/-- `Skip()`, taken where `c` holds: pc <- pc + 2, in 16 bits (R138). -/
def State.skipIf (s : State) (c : Bool) : State := s.setPc (if c then s.pc + 2 else s.pc)

/-- The pixel at column `c` and row `r`, wrapping at the edges (R200). -/
def Frame.pixel (f : Frame) (c r : Nat) : Bool :=
  (f[r % 32]'(Nat.mod_lt r (by decide)))[c % 64]'(Nat.mod_lt c (by decide))

/-- Set the pixel at column `c` and row `r`, wrapping at the edges (R200). -/
def Frame.setPixel (f : Frame) (c r : Nat) (b : Bool) : Frame :=
  f.set (r % 32) ((f[r % 32]'(Nat.mod_lt r (by decide))).set (c % 64) b (Nat.mod_lt c (by decide)))
    (Nat.mod_lt r (by decide))

/-- XOR one pixel into the framebuffer; the flag records a pixel that goes from set to unset (R203). -/
def togglePixel (acc : Frame × Bool) (p : Nat × Nat) : Frame × Bool :=
  (acc.1.setPixel p.1 p.2 (!acc.1.pixel p.1 p.2), acc.2 || acc.1.pixel p.1 p.2)

/-- TAKING A FAULT (R247): the run state records it, and nothing else changes. -/
def State.takeFault (s : State) (r : FaultRecord) : State := s.setRun (.halted r)

/-- A fatal fault of the instruction `i` in execution: the pc is the instruction's address + 2 (R111, R115, R247). The
opcode recorded is the instruction's word. -/
def State.raise (s : State) (k : ErrorKind) (i : Instr) (addr : Option Word) : State :=
  s.takeFault { kind := k, instrAddr := s.pc - 2, opcode := some (encode i), addr := addr }

/-- MemoryOutOfBounds of an access by I + k: I is below 4096, so the first out-of-range address is 4096 (R242). -/
def State.raiseBounds (s : State) (i : Instr) : State := s.raise .memoryOutOfBounds i (some 0x1000)

/-- The environment's inputs for this step: the script's first, else the free ones (log entry 4). -/
def State.env (s : State) : Env :=
  match s.script with
  | [] => Config.envAt s.draws
  | e :: _ => e

/-- The inputs of this step are used up. -/
def State.nextInputs (s : State) : State := { s with script := s.script.tail, draws := s.draws + 1 }

/-- Key `k` of a snapshot (R31). -/
def keyDown (keys : Keypad) (k : Nibble) : Bool := keys[k.toNat]'k.isLt

/-- The codes of the error kinds (R241). -/
def ErrorKind.code : ErrorKind → Nat
  | .memoryOutOfBounds => 1
  | .stackUnderflow => 2
  | .stackOverflow => 3
  | .unknownOpcode => 4
  | .inputSourceDisconnected => 5

/-- The kinds that halt the machine; the other two record nothing (R241). -/
def ErrorKind.fatal : ErrorKind → Bool
  | .memoryOutOfBounds | .stackUnderflow | .stackOverflow => true
  | .unknownOpcode | .inputSourceDisconnected => false

/-- The output "sound active" (R33, R256). -/
def State.soundActive (s : State) : Bool := 0 < s.st.toNat

/-- The framebuffer as the Display Sink reads it: a whole frame between two steps (R33, R68, R255). -/
def State.display (s : State) : Frame := s.fb

/-- The run state as the host reads it (R33, R260). -/
def State.runState (s : State) : Run := s.run

/-- The fault record as the host reads it: there is one exactly while the machine is halted (R32, R33). -/
def State.faultRecord (s : State) : Option FaultRecord :=
  match s.run with
  | .halted r => some r
  | _ => none

/-- An outcome's next state, changed. -/
def mapNext (f : State → State) : Host.Outcome State Fault Refusal → Host.Outcome State Fault Refusal
  | .next s => .next (f s)
  | .fault r => .fault r
  | .refused r => .refused r

end Sys2Proof.Machine
end

