-- ==== Sys2Proof/Machine/Operands.lean ====
section
/-! DEFINITION. The operand forms: the shifted source (R159), the bytes an instruction stores or loads at I (R57), the
BCD digits (R183), the pixels of a sprite (R200, R201), the key a register names (R220). -/

namespace Sys2Proof.Machine

/-- The source of 8XY6 and 8XYE, chosen by `SHIFT_SOURCE` (R159). -/
def State.shiftOperand (s : State) (x y : Nibble) : Byte :=
  match s.cfg.shiftSource with
  | .vy => s.readV y
  | .vx => s.readV x

/-- The address in I, as a number. -/
def State.base (s : State) : Nat := s.i.toNat

/-- V0 to Vx, in order: the bytes FX55 stores (R184). -/
def State.regsUpTo (s : State) (x : Nibble) : List Byte := s.v.toList.take (x.toNat + 1)

/-- The register file with V0 to Vx loaded from I on; the registers above x keep their values (R185). -/
def State.loadedRegs (s : State) (x : Nibble) : Vector Byte 16 :=
  Vector.ofFn fun k => if k.val ≤ x.toNat then s.byteAt (s.base + k.val) else s.v[k.val]

/-- The decimal digits of a byte, hundreds first, one per byte (R183). -/
def bcdDigits (b : Byte) : List Byte :=
  [BitVec.ofNat 8 (b.toNat / 100), BitVec.ofNat 8 (b.toNat / 10 % 10), BitVec.ofNat 8 (b.toNat % 10)]

/-- The rows of a sprite: n bytes from I on, row 0 first (R201). -/
def State.spriteRows (s : State) (n : Nibble) : List Byte :=
  (List.range n.toNat).map fun r => s.byteAt (s.base + r)

/-- The pixels that row `r` of a sprite at column `cx` and row `cy` toggles: bit 7 is the leftmost (R201, R203). -/
def rowPixels (cx cy r : Nat) (row : Byte) : List (Nat × Nat) :=
  ((List.range 8).filter fun c => row.getLsbD (7 - c)).map fun c => ((cx + c) % 64, (cy + r) % 32)

/-- The pixels a sprite toggles, its rows numbered from `r` (R203). -/
def spritePixels (cx cy : Nat) : Nat → List Byte → List (Nat × Nat)
  | _, [] => []
  | r, row :: rows => rowPixels cx cy r row ++ spritePixels cx cy (r + 1) rows

/-- `KeyPressed(k)` (R220). -/
def State.keyPressed (s : State) (k : Byte) : Bool :=
  if k.toNat < 16 then keyDown s.env.keys (k.setWidth 4)
  else match s.cfg.keyOob with
    | .draw => s.env.oobKey
    | .lowNibble => keyDown s.env.keys (k.setWidth 4)

/-- The sixteen keys, or registers, in rising order. -/
def allNibbles : List Nibble := (List.range 16).map (BitVec.ofNat 4)

/-- The keys that transitioned to pressed: down in this snapshot, up in the previous one, in rising order (R225). -/
def State.newKeys (s : State) : List Nibble :=
  allNibbles.filter fun k => keyDown s.env.keys k && !keyDown s.keysPrev k

end Sys2Proof.Machine
end

