-- ==== Sys2Proof/Machine/Flags.lean ====
section
/-! DEFINITION. The flag computations (R22, R150) and the ordered write of result and flag (R117). -/

namespace Sys2Proof.Machine

/-- A flag as VF holds it: 1 or 0 (R22). -/
def flagByte (f : Bool) : Byte := if f then 1 else 0

/-- Carry of 8XY4, from the sum before it is truncated (R150, R157). -/
def carryFlag (a b : Byte) : Bool := 255 < a.toNat + b.toNat

/-- The sum, reduced modulo 256 (R150, R152, R157). -/
def sumByte (a b : Byte) : Byte := BitVec.ofNat 8 (a.toNat + b.toNat)

/-- No-borrow of a - b (R150, R158, R160). -/
def noBorrowFlag (a b : Byte) : Bool := b.toNat ≤ a.toNat

/-- The difference a - b, reduced modulo 256 (R150, R158, R160). -/
def diffByte (a b : Byte) : Byte := BitVec.ofNat 8 (a.toNat + 256 - b.toNat)

/-- The bit a shift right pushes out, bit 0 (R159). -/
def shiftedOutRight (b : Byte) : Bool := b.getLsbD 0

/-- The bit a shift left pushes out, bit 7 (R161). -/
def shiftedOutLeft (b : Byte) : Bool := b.getLsbD 7

/-- The register that holds the flags, VF (R22). -/
def vf : Nibble := 0xF

/-- `WriteResultAndFlag(x, res, flag)`, in the order `VF_ORDER` gives (R117). -/
def State.writeResultAndFlag (s : State) (x : Nibble) (res : Byte) (flag : Bool) : State :=
  match s.cfg.vfOrder with
  | .flagLast => (s.writeV x res).writeV vf (flagByte flag)
  | .resultLast => (s.writeV vf (flagByte flag)).writeV x res

end Sys2Proof.Machine
end

