-- ==== Sys2Proof/Machine/Cycle.lean ====
section
/-! DEFINITION. The parts of a step around an instruction: the fetch and its fault (R111, R112), the unknown opcode
(R118), the wait for a key (R225), the end of a CPU step (R110), the timer tick (R251), and the host's quit (R246) and
reset (R270). Machine/Step.lean puts them together. -/

namespace Sys2Proof.Machine

/-- The fetch fails: pc + 1 lies beyond memory (R112). -/
def State.fetchFails (s : State) : Bool := Config.memSize ≤ s.pc.toNat + 1

/-- The word at the pc, high byte first (R111). -/
def State.fetchedWord (s : State) : Word := wordOfBytes (s.byteAt s.pc.toNat) (s.byteAt (s.pc.toNat + 1))

/-- The state in which the fetched instruction executes: the pc has advanced by 2, not wrapped at 0x1000 (R111). -/
def State.fetched (s : State) : State := s.setPc (s.pc + 2)

/-- A fetch fault: the pc does not advance, no opcode is recorded (R112, R247). -/
def State.fetchFault (s : State) : State :=
  s.takeFault
    { kind := .memoryOutOfBounds, instrAddr := s.pc, opcode := none
      addr := some (if Config.memSize ≤ s.pc.toNat then s.pc else 0x1000) }

/-- An unknown opcode is a no-op: the fetch's advance is its whole effect (R118). -/
def execUnknown (s : State) : State := s

/-- `choose` (R225): the environment's choice where it is a newly pressed key, else the least one, `k`. -/
def State.chosenKey (s : State) (k : Nibble) : Nibble := if s.env.choice ∈ s.newKeys then s.env.choice else k

/-- The wait resolution (R225): nothing changes unless a key transitioned to pressed. -/
def waitResolve (x : Nibble) (s : State) : State :=
  match s.newKeys with
  | [] => s
  | k :: _ => (s.writeV x ((s.chosenKey k).setWidth 8)).setRun .running

/-- The end of a CPU step: the snapshot is kept unless the step halted (R110, R31), and its inputs are used up. -/
def endCpuStep (s : State) : State :=
  match s.run with
  | .halted _ => s.nextInputs
  | _ => (s.setKeysPrev s.env.keys).nextInputs

/-- One timer less one, clamped at 0 (R251). -/
def tickDown (t : Byte) : Byte := if t = 0 then 0 else t - 1

/-- One tick of the timer driver (R251). -/
def timerTick (s : State) : State := (s.setDt (tickDown s.dt)).setSt (tickDown s.st)

/-- The host's quit: a clean end (R246). -/
def hostQuit (s : State) : State := s.setRun .terminated

/-- Memory after a reset: the launch content, then the font, then the program (R270). -/
def launchMemory (l : Launch) : Memory :=
  ((Memory.writeCells [] l.memInit).writeBytes fontBase l.font.toList).writeBytes Config.programBase l.program

/-- A register after a reset: 0, or the launch's value under `REG_INIT = ANY` (R35). -/
def launchValue {α : Type} (p : Params) (zero any : α) : α :=
  match p.regInit with
  | .zero => zero
  | .any => any

/-- The state a reset leaves (R35, R270). The parameters and the environment's script are not the block's state and go
on. -/
def launched (l : Launch) (s : State) : State :=
  { mem := launchMemory l
    v := launchValue s.cfg (Vector.replicate 16 0) l.v
    i := launchValue s.cfg 0 l.i
    pc := Config.entryPc
    stack := []
    dt := launchValue s.cfg 0 l.dt
    st := launchValue s.cfg 0 l.st
    fb := Frame.blank
    run := .running
    keysPrev := Vector.replicate 16 false
    cfg := s.cfg
    script := s.script
    draws := s.draws }

/-- The host's reset (R270), enabled in every run state; refused where the program does not fit (D22). -/
def hostReset (l : Launch) (s : State) : Host.Outcome State Fault Refusal :=
  if programFits l.program then .next (launched l s) else .refused .loadRefused

/-- The state with a word in the two bytes at the pc, high byte first (R55). -/
def State.placeWord (s : State) (op : Word) : State :=
  s.setMem (s.mem.writeBytes s.pc.toNat [highByte op, lowByte op])

/-- The state whose next step is the CPU's: Running, and the step's turn given to the CPU; the step's other inputs are
what they were. -/
def State.cpuNext (s : State) : State :=
  { s with run := .running, script := { s.env with turn := .cpu } :: s.script.tail }

end Sys2Proof.Machine
end

