-- ==== Sys2Proof/Machine/Alu.lean ====
section
/-! DEFINITION. The ALU (42_alu.md): loads, the register-register operations with their flags, and RND. Operands are
read before any write (R115), so a destination that is also a source sees the old value. -/

namespace Sys2Proof.Machine

/-- 6XNN (R151). -/
def execLdImm (x : Nibble) (nn : Byte) (s : State) : Host.Outcome State Fault Refusal := .next (s.writeV x nn)

/-- 7XNN (R152): no flag. -/
def execAddImm (x : Nibble) (nn : Byte) (s : State) : Host.Outcome State Fault Refusal :=
  .next (s.writeV x (sumByte (s.readV x) nn))

/-- 8XY0 (R153). -/
def execLdReg (x y : Nibble) (s : State) : Host.Outcome State Fault Refusal := .next (s.writeV x (s.readV y))

/-- 8XY1 (R154): no flag. -/
def execOr (x y : Nibble) (s : State) : Host.Outcome State Fault Refusal :=
  .next (s.writeV x (s.readV x ||| s.readV y))

/-- 8XY2 (R155): no flag. -/
def execAnd (x y : Nibble) (s : State) : Host.Outcome State Fault Refusal :=
  .next (s.writeV x (s.readV x &&& s.readV y))

/-- 8XY3 (R156): no flag. -/
def execXor (x y : Nibble) (s : State) : Host.Outcome State Fault Refusal :=
  .next (s.writeV x (s.readV x ^^^ s.readV y))

/-- 8XY4 (R157). -/
def execAddReg (x y : Nibble) (s : State) : Host.Outcome State Fault Refusal :=
  .next (s.writeResultAndFlag x (sumByte (s.readV x) (s.readV y)) (carryFlag (s.readV x) (s.readV y)))

/-- 8XY5 (R158). -/
def execSub (x y : Nibble) (s : State) : Host.Outcome State Fault Refusal :=
  .next (s.writeResultAndFlag x (diffByte (s.readV x) (s.readV y)) (noBorrowFlag (s.readV x) (s.readV y)))

/-- 8XY6 (R159): logical, by one. -/
def execShr (x y : Nibble) (s : State) : Host.Outcome State Fault Refusal :=
  .next (s.writeResultAndFlag x (s.shiftOperand x y >>> 1) (shiftedOutRight (s.shiftOperand x y)))

/-- 8XY7 (R160). -/
def execSubn (x y : Nibble) (s : State) : Host.Outcome State Fault Refusal :=
  .next (s.writeResultAndFlag x (diffByte (s.readV y) (s.readV x)) (noBorrowFlag (s.readV y) (s.readV x)))

/-- 8XYE (R161): by one. -/
def execShl (x y : Nibble) (s : State) : Host.Outcome State Fault Refusal :=
  .next (s.writeResultAndFlag x (s.shiftOperand x y <<< 1) (shiftedOutLeft (s.shiftOperand x y)))

/-- CXNN (R162): the step's random byte, masked. -/
def execRnd (x : Nibble) (nn : Byte) (s : State) : Host.Outcome State Fault Refusal :=
  .next (s.writeV x (s.env.rnd &&& nn))

end Sys2Proof.Machine
end

