-- ==== Sys2Proof/Machine/ControlFlow.lean ====
section
/-! DEFINITION. Control flow (41_control_flow.md): RET, JP, CALL, the four register skips, JP V0. In every meaning the
pc is the instruction's address + 2 (R111, R121). -/

namespace Sys2Proof.Machine

/-- 00EE (R130): pop into the pc; StackUnderflow on an empty stack. -/
def execRet (s : State) : Host.Outcome State Fault Refusal :=
  match s.pop with
  | none => .next (s.raise .stackUnderflow .ret none)
  | some (a, t) => .next (t.setPc a)

/-- 1NNN (R131). -/
def execJp (nnn : Addr) (s : State) : Host.Outcome State Fault Refusal := .next (s.setPc (nnn.setWidth 16))

/-- 2NNN (R132): push the pc, then jump; StackOverflow on a full stack. -/
def execCall (nnn : Addr) (s : State) : Host.Outcome State Fault Refusal :=
  match s.push s.pc with
  | none => .next (s.raise .stackOverflow (.call nnn) none)
  | some t => .next (t.setPc (nnn.setWidth 16))

/-- 3XNN (R133). -/
def execSeImm (x : Nibble) (nn : Byte) (s : State) : Host.Outcome State Fault Refusal :=
  .next (s.skipIf (s.readV x = nn))

/-- 4XNN (R134). -/
def execSneImm (x : Nibble) (nn : Byte) (s : State) : Host.Outcome State Fault Refusal :=
  .next (s.skipIf (s.readV x ≠ nn))

/-- 5XY0 (R135). -/
def execSeReg (x y : Nibble) (s : State) : Host.Outcome State Fault Refusal :=
  .next (s.skipIf (s.readV x = s.readV y))

/-- 9XY0 (R136). -/
def execSneReg (x y : Nibble) (s : State) : Host.Outcome State Fault Refusal :=
  .next (s.skipIf (s.readV x ≠ s.readV y))

/-- BNNN (R137): the sum of the address and V0, reduced modulo 0x1000 (C4). -/
def execJpV0 (nnn : Addr) (s : State) : Host.Outcome State Fault Refusal :=
  .next (s.setPc ((BitVec.ofNat 12 (nnn.toNat + (s.readV 0).toNat)).setWidth 16))

end Sys2Proof.Machine
end

