-- ==== Sys2Proof/Machine/Display.lean ====
section
/-! DEFINITION. The framebuffer instructions (44_display.md): CLS and DRW. -/

namespace Sys2Proof.Machine

/-- 00E0 (R202): the framebuffer only (C3). -/
def execCls (s : State) : Host.Outcome State Fault Refusal := .next (s.setFb Frame.blank)

/-- The framebuffer after a sprite is drawn, and whether a pixel went from set to unset (R203). -/
def State.drawn (s : State) (x y n : Nibble) : Frame × Bool :=
  (spritePixels (s.readV x).toNat (s.readV y).toNat 0 (s.spriteRows n)).foldl togglePixel (s.fb, false)

/-- DXYN (R203). -/
def execDrw (x y n : Nibble) (s : State) : Host.Outcome State Fault Refusal :=
  if inMemory s.base n.toNat then .next ((s.setFb (s.drawn x y n).1).writeV vf (flagByte (s.drawn x y n).2))
  else .next (s.raiseBounds (.drw x y n))

end Sys2Proof.Machine
end

