-- ==== Sys2Proof/Machine/IndexMemory.lean ====
section
/-! DEFINITION. The address register and the memory instructions (43_index_and_memory.md). Every address is checked
before the first access (R59); I is left as it is by FX33, FX55 and FX65 (D14). -/

namespace Sys2Proof.Machine

/-- ANNN (R180). -/
def execLdI (nnn : Addr) (s : State) : Host.Outcome State Fault Refusal := .next (s.setI nnn)

/-- FX1E (R181): 12-bit wraparound, no flag. -/
def execAddI (x : Nibble) (s : State) : Host.Outcome State Fault Refusal :=
  .next (s.setI (BitVec.ofNat 12 (s.i.toNat + (s.readV x).toNat)))

/-- FX29 (R182): the whole byte Vx counts, not its low nibble (D13). -/
def execLdF (x : Nibble) (s : State) : Host.Outcome State Fault Refusal :=
  .next (s.setI (BitVec.ofNat 12 (fontBase + 5 * (s.readV x).toNat)))

/-- FX33 (R183). -/
def execLdB (x : Nibble) (s : State) : Host.Outcome State Fault Refusal :=
  if inMemory s.base 3 then .next (s.setMem (s.mem.writeBytes s.base (bcdDigits (s.readV x))))
  else .next (s.raiseBounds (.ldB x))

/-- FX55 (R184). -/
def execLdMemVx (x : Nibble) (s : State) : Host.Outcome State Fault Refusal :=
  if inMemory s.base (x.toNat + 1) then .next (s.setMem (s.mem.writeBytes s.base (s.regsUpTo x)))
  else .next (s.raiseBounds (.ldMemVx x))

/-- FX65 (R185). -/
def execLdVxMem (x : Nibble) (s : State) : Host.Outcome State Fault Refusal :=
  if inMemory s.base (x.toNat + 1) then .next (s.setRegs (s.loadedRegs x))
  else .next (s.raiseBounds (.ldVxMem x))

end Sys2Proof.Machine
end

