-- ==== Sys2Proof/Machine/KeypadTimers.lean ====
section
/-! DEFINITION. The keypad and timer instructions (45_keypad_and_timers.md). -/

namespace Sys2Proof.Machine

/-- EX9E (R221). -/
def execSkp (x : Nibble) (s : State) : Host.Outcome State Fault Refusal :=
  .next (s.skipIf (s.keyPressed (s.readV x)))

/-- EXA1 (R222). -/
def execSknp (x : Nibble) (s : State) : Host.Outcome State Fault Refusal :=
  .next (s.skipIf (!s.keyPressed (s.readV x)))

/-- FX07 (R223). -/
def execLdVxDt (x : Nibble) (s : State) : Host.Outcome State Fault Refusal := .next (s.writeV x s.dt)

/-- FX0A (R224): no further fetch until a key press resolves the wait (R225). -/
def execLdVxK (x : Nibble) (s : State) : Host.Outcome State Fault Refusal := .next (s.setRun (.awaitingKey x))

/-- FX15 (R226). -/
def execLdDtVx (x : Nibble) (s : State) : Host.Outcome State Fault Refusal := .next (s.setDt (s.readV x))

/-- FX18 (R227). -/
def execLdStVx (x : Nibble) (s : State) : Host.Outcome State Fault Refusal := .next (s.setSt (s.readV x))

end Sys2Proof.Machine
end

