-- ==== Sys2Proof/Machine/Step.lean ====
section
/-! DEFINITION. One step of the machine: one atomic step of the agent whose turn it is (R9, R63). It only puts together
what Machine/Cycle.lean and `exec` define. -/

namespace Sys2Proof.Machine

/-- A CPU step in Running: fetch, decode, execute (R110). -/
def cpuRun (s : State) : Host.Outcome State Fault Refusal :=
  if s.fetchFails then .next s.fetchFault
  else
    match decode s.fetchedWord with
    | .known i => exec i s.fetched
    | .unknown _ => .next (execUnknown s.fetched)

/-- One step: of the CPU (R110), of the timer driver (R251) or of the host (R262), as the turn says. In Halted and in
Terminated only the host's reset is a step (R119, R253). -/
def step (s : State) : Host.Outcome State Fault Refusal :=
  match s.env.turn, s.run with
  | .reset l, _ => mapNext State.nextInputs (hostReset l s)
  | _, .halted r => .fault (.halted r)
  | _, .terminated => .refused .terminated
  | .tick, _ => .next (timerTick s).nextInputs
  | .quit, _ => .next (hostQuit s).nextInputs
  | .cpu, .awaitingKey x => .next (endCpuStep (waitResolve x s))
  | .cpu, .running => mapNext endCpuStep (cpuRun s)

/-- `s` with the word `w` where the next step fetches, that step being the CPU's in Running: R110 fetches only there.
The bits above `nbits` are 0. -/
def State.withFetchWord (s : State) (nbits w : Nat) : State :=
  (s.placeWord (BitVec.ofNat 16 (w % 2 ^ nbits))).cpuNext

end Sys2Proof.Machine
end

