-- ==== Sys2Proof/Safety.lean ====
section
/-! DEFINITION. What counts as a good run, and the terms the statements use: the invariant of every step, what an
instruction may change, the fault condition of an instruction, the pixels a sprite covers. -/

namespace Sys2Proof.Machine

/-- Some agent besides the host's reset has a step: Running or AwaitingKey (R119, R253). -/
def Run.live : Run → Bool
  | .running | .awaitingKey _ => true
  | .halted _ | .terminated => false

/-- Halted: a fault outcome, never a good final state (R119, R248). -/
def Run.isHalted : Run → Bool
  | .halted _ => true
  | .running | .awaitingKey _ | .terminated => false

/-- The run has come to its clean end (R246). A machine stuck in AwaitingKey has not finished (R277). -/
def State.finished (s : State) : Bool := s.run = .terminated

/-- A fault record agrees with the pc it was taken at (R32, R247): a fatal kind; an address exactly for
MemoryOutOfBounds; after a fetch fault the pc is where the fetch was tried, else it is the instruction's address + 2. -/
def FaultRecord.agrees (r : FaultRecord) (pc : Word) : Prop :=
  r.kind.fatal = true ∧ (r.kind = .memoryOutOfBounds ↔ r.addr.isSome = true) ∧
    (r.opcode = none → r.kind = .memoryOutOfBounds ∧ pc = r.instrAddr) ∧
    (r.opcode.isSome = true → pc = r.instrAddr + 2)

/-- THE INVARIANT of every step: memory is in its canonical form; the stack is within its capacity and its entries are
at most 0x1000 (R25); the pc is at most 0x1002 (R24, R112); a fault record agrees with the pc (R32). -/
def State.Inv (s : State) : Prop :=
  Memory.wf s.mem ∧ s.cfg.wellFormed = true ∧ s.stack.length ≤ s.cfg.stackDepth ∧ (∀ a ∈ s.stack, a.toNat ≤ 0x1000) ∧
    s.pc.toNat ≤ 0x1002 ∧ ∀ r, s.run = .halted r → r.agrees s.pc

/-- The components of R20 that an instruction may write. -/
inductive Part where
  | mem | v | i | pc | stack | dt | st | fb | run
  deriving DecidableEq, Repr

/-- From `s` to `t` every component outside `parts` is unchanged (R36, R114), and so are the previous keypad snapshot,
the parameters and the environment's inputs, which no instruction writes. Memory is compared byte by byte. -/
def Unchanged (parts : List Part) (s t : State) : Prop :=
  (.mem ∉ parts → ∀ a, t.byteAt a = s.byteAt a) ∧ (.v ∉ parts → ∀ r, t.readV r = s.readV r) ∧
    (.i ∉ parts → t.i = s.i) ∧ (.pc ∉ parts → t.pc = s.pc) ∧ (.stack ∉ parts → t.stack = s.stack) ∧
    (.dt ∉ parts → t.dt = s.dt) ∧ (.st ∉ parts → t.st = s.st) ∧
    (.fb ∉ parts → ∀ c r, t.fb.pixel c r = s.fb.pixel c r) ∧ (.run ∉ parts → t.run = s.run) ∧
    t.keysPrev = s.keysPrev ∧ t.cfg = s.cfg ∧ t.script = s.script ∧ t.draws = s.draws

/-- The V registers that each instruction may write (R36): its destination, VF as the flag, V0 to Vx for FX65. -/
def mayWriteV (i : Instr) (r : Nibble) : Bool :=
  match i with
  | .ldImm x _ | .addImm x _ | .ldReg x _ | .orReg x _ | .andReg x _ | .xorReg x _ | .rnd x _ | .ldVxDt x => r = x
  | .addReg x _ | .sub x _ | .shr x _ | .subn x _ | .shl x _ => r = x || r = 0xF
  | .drw _ _ _ => r = 0xF
  | .ldVxMem x => r.toNat ≤ x.toNat
  | .cls | .ret | .jp _ | .call _ | .seImm _ _ | .sneImm _ _ | .seReg _ _ | .sneReg _ _ | .ldI _ | .jpV0 _ | .skp _
  | .sknp _ | .ldVxK _ | .ldDtVx _ | .ldStVx _ | .addI _ | .ldF _ | .ldB _ | .ldMemVx _ => false

/-- The fault condition of each instruction (R242, R243, R244, R249): the fatal kind it raises in `s`, if any. -/
def faultOf (i : Instr) (s : State) : Option ErrorKind :=
  match i with
  | .ret => if s.stack.length = 0 then some .stackUnderflow else none
  | .call _ => if s.stack.length = s.cfg.stackDepth then some .stackOverflow else none
  | .drw _ _ n => if 0 < n.toNat ∧ 4096 ≤ s.i.toNat + n.toNat - 1 then some .memoryOutOfBounds else none
  | .ldB _ => if 4096 ≤ s.i.toNat + 2 then some .memoryOutOfBounds else none
  | .ldMemVx x | .ldVxMem x => if 4096 ≤ s.i.toNat + x.toNat then some .memoryOutOfBounds else none
  | .cls | .jp _ | .seImm _ _ | .sneImm _ _ | .seReg _ _ | .ldImm _ _ | .addImm _ _ | .ldReg _ _ | .orReg _ _
  | .andReg _ _ | .xorReg _ _ | .addReg _ _ | .sub _ _ | .shr _ _ | .subn _ _ | .shl _ _ | .sneReg _ _ | .ldI _
  | .jpV0 _ | .rnd _ _ | .skp _ | .sknp _ | .ldVxDt _ | .ldVxK _ | .ldDtVx _ | .ldStVx _ | .addI _ | .ldF _ => none

/-- The record of a fatal fault that instruction `i` raises in `s` (R32): the instruction's address is the pc - 2. -/
def recordOf (k : ErrorKind) (i : Instr) (s : State) : FaultRecord :=
  { kind := k, instrAddr := s.pc - 2, opcode := some (encode i)
    addr := if k = .memoryOutOfBounds then some 0x1000 else none }

/-- A set bit of the sprite that `DXYN` draws in `s` lies on the pixel at column `c`, row `r` (R200, R201, R203). -/
def spriteCovers (s : State) (x y n : Nibble) (c r : Nat) : Prop :=
  ∃ k < n.toNat, ∃ j < 8, (s.byteAt (s.i.toNat + k)).getLsbD (7 - j) = true ∧
    ((s.readV x).toNat + j) % 64 = c ∧ ((s.readV y).toNat + k) % 32 = r

/-- Key `k` transitioned to pressed: down in this step's snapshot and up in the previous step's (R225). -/
def newlyPressed (s : State) (k : Nibble) : Prop := keyDown s.env.keys k = true ∧ keyDown s.keysPrev k = false

/-- No snapshot of the inputs `es` presses a key that was up in the snapshot before it, the first one's being `prev`
(R225). Keys may be released, and one held all along may stay down. -/
def pressesNothingNew : Keypad → List Env → Prop
  | _, [] => True
  | prev, e :: es => (∀ k, keyDown e.keys k = true → keyDown prev k = true) ∧ pressesNothingNew e.keys es

/-- The byte at `a` after the instruction `i` executes in `s` without a fault: the digit that FX33 stores there (R183),
the register that FX55 stores there (R184), and the byte as it was where the instruction stores nothing. -/
def byteAfterStore (i : Instr) (s : State) (a : Nat) : Byte :=
  match i with
  | .ldB x =>
    if a = s.i.toNat then BitVec.ofNat 8 ((s.readV x).toNat / 100)
    else if a = s.i.toNat + 1 then BitVec.ofNat 8 ((s.readV x).toNat / 10 % 10)
    else if a = s.i.toNat + 2 then BitVec.ofNat 8 ((s.readV x).toNat % 10)
    else s.byteAt a
  | .ldMemVx x =>
    if s.i.toNat ≤ a ∧ a ≤ s.i.toNat + x.toNat then s.readV (BitVec.ofNat 4 (a - s.i.toNat)) else s.byteAt a
  | .cls | .ret | .jp _ | .call _ | .seImm _ _ | .sneImm _ _ | .seReg _ _ | .ldImm _ _ | .addImm _ _ | .ldReg _ _
  | .orReg _ _ | .andReg _ _ | .xorReg _ _ | .addReg _ _ | .sub _ _ | .shr _ _ | .subn _ _ | .shl _ _ | .sneReg _ _
  | .ldI _ | .jpV0 _ | .rnd _ _ | .drw _ _ _ | .skp _ | .sknp _ | .ldVxDt _ | .ldVxK _ | .ldDtVx _ | .ldStVx _
  | .addI _ | .ldF _ | .ldVxMem _ => s.byteAt a

/-- What a launch leaves in the byte at `a`, under the font and the program: the last byte that `MEM_INIT` gives for it,
else the free byte (R270, D4). -/
def launchByte (l : Launch) (a : Nat) : Byte :=
  ((l.memInit.reverse.find? fun c => c.1 = a).map Prod.snd).getD (Config.memInit a)

end Sys2Proof.Machine
end

