-- ==== Sys2Proof/Certificates/Slice0/Obligations.lean ====
section
/-! DEFINITION. The statements about the machine, each a proposition for the provers. A statement about an instruction
says its word (R84), that `exec` answers a next state, what that state holds, and, with `Unchanged`, what it leaves as it
was. In `exec` the pc is the instruction's address + 2 (R111, R121). -/

open Sys2Proof Sys2Proof.Machine

/-! ## Encoding (30_encoding.md) -/

/-- Every instruction, at every value of its operands, is read back from its word, and from the word's two bytes laid
out high byte first (R55, R81 to R84). -/
def Obligations.DecodeOfEncodeIsIdentity : Prop :=
  ∀ i : Instr, i.wellFormed = true →
    decode (encode i) = .known i ∧ decodeBytes (highByte (encode i)) (lowByte (encode i)) = .known i

/-- A word that decodes to an instruction is the word of that instruction: decoding drops no bit (R81 to R83). -/
def Obligations.EncodeOfDecodeIsIdentity : Prop :=
  ∀ (op : Word) (i : Instr), decode op = .known i → encode i = op

/-- Decoding is total and unambiguous (R85, R87): a word is an instruction exactly of the one row of the opcode table
whose mask and match it meets, and UNKNOWN, named with its word, exactly where it meets no row's. -/
def Obligations.DecodingFollowsTheOpcodeTable : Prop :=
  ∀ op : Word,
    match decode op with
    | .known i => i.row ∈ opcodeRows ∧ ∀ r ∈ opcodeRows, (op &&& r.mask = r.bits ↔ r = i.row)
    | .unknown w => w = op ∧ ∀ r ∈ opcodeRows, op &&& r.mask ≠ r.bits

/-- Words written out bit by bit from the patterns of R84 decode to the instructions they stand for (a sanity
statement). -/
def Obligations.PatternWordsDecode : Prop :=
  decode 0b0000000011101110#16 = .known .ret ∧ decode 0b0010001100010000#16 = .known (.call 0x310) ∧
    decode 0b1000000100100110#16 = .known (.shr 1 2) ∧ decode 0b1101000100100101#16 = .known (.drw 1 2 5) ∧
    decode 0b1110010110100001#16 = .known (.sknp 5) ∧ decode 0b1111101000110011#16 = .known (.ldB 0xA) ∧
    decode 0b0101000100100001#16 = .unknown 0x5121

/-! ## The step (40_execution_cycle.md, 45_keypad_and_timers.md R225, 60_exceptions.md, 70_reset_and_hazards.md) -/

/-- A CPU step in Running whose two bytes at the pc, high byte first, decode to an instruction runs that instruction
from the state with the pc advanced by 2; then the keypad snapshot is kept, unless the instruction halted the machine
(the spec's decision D12, log entry 18), and the step's inputs are used up (R110, R111; log entry 4). -/
def Obligations.StepRunsTheDecodedInstruction : Prop :=
  ∀ (s t : State) (i : Instr), s.env.turn = .cpu → s.run = .running → s.pc.toNat + 1 < 4096 →
    decode (s.byteAt s.pc.toNat ++ s.byteAt (s.pc.toNat + 1)) = .known i →
    exec i { s with pc := s.pc + 2 } = .next t →
    step s = .next { t with
      keysPrev := if t.run.isHalted = true then t.keysPrev else s.env.keys
      script := s.script.tail
      draws := s.draws + 1 }

/-- An unknown opcode is a no-op: the pc advances by 2 for the next fetch, and the opcode changes nothing else (R111,
R118, R245). The CPU step around it renews the kept keypad snapshot, like every CPU step that does not halt: that clause
is R110's, the spec's decision D12 (log entry 18). -/
def Obligations.UnknownOpcodeOnlyAdvancesThePc : Prop :=
  ∀ (s : State) (w : Word), s.env.turn = .cpu → s.run = .running → s.pc.toNat + 1 < 4096 →
    decode (s.byteAt s.pc.toNat ++ s.byteAt (s.pc.toNat + 1)) = .unknown w →
    step s = .next { s with
      pc := s.pc + 2
      keysPrev := s.env.keys
      script := s.script.tail
      draws := s.draws + 1 }

/-- A fetch at pc + 1 >= 4096 halts the machine: the record holds the pc, no opcode and the first out-of-range address;
the pc does not advance and nothing else changes (R112; the record is the spec's decision D16). -/
def Obligations.FetchBeyondMemoryHalts : Prop :=
  ∀ s : State, s.env.turn = .cpu → s.run = .running → 4096 ≤ s.pc.toNat + 1 →
    step s = .next { s with
      run := .halted
        { kind := .memoryOutOfBounds
          instrAddr := s.pc
          opcode := none
          addr := some (if 4096 ≤ s.pc.toNat then s.pc else 0x1000) }
      script := s.script.tail
      draws := s.draws + 1 }

/-- Halted and Terminated: no agent has a step but the host's reset (R119). The CPU's, the timer driver's and the host's
quit turns stop in Halted with the fault's record and in Terminated without a fault. -/
def Obligations.HaltedAndTerminatedTakeNoStep : Prop :=
  ∀ s : State, (∀ l, s.env.turn ≠ .reset l) →
    (∀ r, s.run = .halted r → step s = .fault (.halted r)) ∧ (s.run = .terminated → step s = .refused .terminated)

/-- A CPU step that waits for a key, with no key newly pressed, changes nothing but the kept keypad snapshot (R225; what
counts as newly pressed is the spec's decision D12). -/
def Obligations.WaitGoesOnWithoutANewKey : Prop :=
  ∀ (s : State) (x : Nibble), s.env.turn = .cpu → s.run = .awaitingKey x → (∀ k, ¬ newlyPressed s k) →
    step s = .next { s with keysPrev := s.env.keys, script := s.script.tail, draws := s.draws + 1 }

/-- A CPU step that waits for a key, with some key newly pressed, stores one of the newly pressed keys in Vx and resumes
Running, without a fetch: the key the environment chooses where that is one of them, else the least (R225; the free
choice and its default are the spec's decision D11, log entry 6). -/
def Obligations.NewKeyEndsTheWait : Prop :=
  ∀ (s : State) (x k₀ : Nibble), s.env.turn = .cpu → s.run = .awaitingKey x → newlyPressed s k₀ →
    ∃ (k : Nibble) (t : State), step s = .next t ∧ newlyPressed s k ∧
      (newlyPressed s s.env.choice → k = s.env.choice) ∧
      (¬ newlyPressed s s.env.choice → ∀ j, newlyPressed s j → k.toNat ≤ j.toNat) ∧
      (∀ r, t.readV r = if r = x then k.setWidth 8 else s.readV r) ∧ t.run = .running ∧ t.keysPrev = s.env.keys ∧
      Unchanged [.v, .run] s { t with keysPrev := s.keysPrev, script := s.script, draws := s.draws }

/-- However many CPU steps wait for a key while none of their snapshots presses a key that was up in the one before, the
machine still waits and only the kept keypad snapshot has changed: it is the last step's (R225, R277). Keys may be
released meanwhile, and a key held all along does not end the wait. What counts as newly pressed, and that the snapshot
is kept, is the spec's decision D12 (log entry 18). -/
def Obligations.WaitLastsWhileNoKeyIsPressed : Prop :=
  ∀ (es : List Env) (s : State) (x : Nibble), s.run = .awaitingKey x → s.script = es → (∀ e ∈ es, e.turn = .cpu) →
    pressesNothingNew s.keysPrev es →
    Host.Core.run core es.length s = .next { s with
      keysPrev := (es.map Env.keys).getLastD s.keysPrev
      script := []
      draws := s.draws + es.length }

/-- One tick, in Running or AwaitingKey, takes 1 off each timer that is not 0 and changes nothing else (R251). -/
def Obligations.TickDecrementsBothTimers : Prop :=
  ∀ s : State, s.env.turn = .tick → (s.run = .running ∨ ∃ x, s.run = .awaitingKey x) →
    ∃ t, step s = .next t ∧ t.dt.toNat = s.dt.toNat - 1 ∧ t.st.toNat = s.st.toNat - 1 ∧
      Unchanged [.dt, .st] s { t with script := s.script, draws := s.draws }

/-- The host's quit, in Running or AwaitingKey, ends the run cleanly and changes nothing else (R246; the moment is the
spec's decision D20). -/
def Obligations.QuitTerminatesCleanly : Prop :=
  ∀ s : State, s.env.turn = .quit → (s.run = .running ∨ ∃ x, s.run = .awaitingKey x) →
    step s = .next { s with run := .terminated, script := s.script.tail, draws := s.draws + 1 }

/-- The host's reset, enabled in every run state, puts every component at its value after reset, whatever it was (R35,
R270; the values are the spec's decisions D2, D3, D4, D21). -/
def Obligations.HostResetStartsAnew : Prop :=
  ∀ (s : State) (l : Launch), s.env.turn = .reset l → l.program.length ≤ 3584 →
    ∃ t, step s = .next t ∧ t.pc = 0x200 ∧ t.stack = [] ∧ t.run = .running ∧ (∀ c r, t.fb.pixel c r = false) ∧
      (∀ k, keyDown t.keysPrev k = false) ∧ t.cfg = s.cfg ∧
      (s.cfg.regInit = .zero → (∀ r, t.readV r = 0) ∧ t.i = 0 ∧ t.dt = 0 ∧ t.st = 0) ∧
      (s.cfg.regInit = .any → t.v = l.v ∧ t.i = l.i ∧ t.dt = l.dt ∧ t.st = l.st) ∧
      (∀ k : Fin 80, t.byteAt k.val = l.font.get k) ∧
      (∀ k : Fin l.program.length, t.byteAt (0x200 + k.val) = l.program.get k) ∧
      (∀ a, 80 ≤ a → (a < 0x200 ∨ 0x200 + l.program.length ≤ a) → a < 4096 → t.byteAt a = launchByte l a)

/-- A program image longer than 3584 bytes is refused, and no state results (R258; the spec's decision D22). -/
def Obligations.OversizedImageIsRefused : Prop :=
  ∀ (s : State) (l : Launch), s.env.turn = .reset l → 3584 < l.program.length → step s = .refused .loadRefused

/-- The machine right after reset, with the default parameters and no image: the values of R35, the default font from
0x000 on (R53; log entry 5), and the free launch content elsewhere (D4; log entry 3). -/
def Obligations.ResetStateHasTheResetValues : Prop :=
  State.reset.pc = 0x200 ∧ State.reset.stack = [] ∧ State.reset.run = .running ∧ (∀ r, State.reset.readV r = 0) ∧
    State.reset.i = 0 ∧ State.reset.dt = 0 ∧ State.reset.st = 0 ∧ (∀ c r, State.reset.fb.pixel c r = false) ∧
    (∀ k, keyDown State.reset.keysPrev k = false) ∧ State.reset.cfg = Config.defaults ∧
    (∀ a, 80 ≤ a → State.reset.byteAt a = Config.memInit a) ∧
    (List.range 80).map State.reset.byteAt = fontLow ++ fontHigh

/-! ## Invariants and whole-machine rules -/

/-- The invariant holds at reset. -/
def Obligations.InvariantHoldsAtReset : Prop := State.reset.Inv

/-- Every step, of whichever agent and from whatever state meets it, keeps the invariant: memory canonical, the stack
within its capacity with entries at most 0x1000, the pc at most 0x1002, a fault record that agrees with the pc. -/
def Obligations.EveryStepKeepsTheInvariant : Prop :=
  ∀ s t : State, s.Inv → step s = .next t → t.Inv

/-- No step changes a parameter: the configuration is fixed for a run (R34). -/
def Obligations.ParametersAreFixedForARun : Prop :=
  ∀ s t : State, step s = .next t → t.cfg = s.cfg

/-- The writers of each component, over all instructions (R36): a component, or a V register, that differs after an
instruction is one that R36 lists that instruction for; the run state differs by FX0A's wait or a fault alone. -/
def Obligations.OnlyTheListedInstructionsWrite : Prop :=
  ∀ (i : Instr) (s t : State), exec i s = .next t →
    ((∃ a, t.byteAt a ≠ s.byteAt a) → (∃ x, i = .ldB x) ∨ ∃ x, i = .ldMemVx x) ∧
    (∀ r, t.readV r ≠ s.readV r → mayWriteV i r = true) ∧
    (t.i ≠ s.i → (∃ n, i = .ldI n) ∨ (∃ x, i = .addI x) ∨ ∃ x, i = .ldF x) ∧
    (t.stack ≠ s.stack → i = .ret ∨ ∃ n, i = .call n) ∧
    (t.dt ≠ s.dt → ∃ x, i = .ldDtVx x) ∧ (t.st ≠ s.st → ∃ x, i = .ldStVx x) ∧
    (t.fb ≠ s.fb → i = .cls ∨ ∃ x y n, i = .drw x y n) ∧
    (t.pc ≠ s.pc → i = .ret ∨ (∃ n, i = .jp n) ∨ (∃ n, i = .call n) ∨ (∃ n, i = .jpV0 n) ∨
      (t.pc = s.pc + 2 ∧ ((∃ x n, i = .seImm x n) ∨ (∃ x n, i = .sneImm x n) ∨ (∃ x y, i = .seReg x y) ∨
        (∃ x y, i = .sneReg x y) ∨ (∃ x, i = .skp x) ∨ ∃ x, i = .sknp x))) ∧
    (t.run ≠ s.run → (∃ x, i = .ldVxK x ∧ t.run = .awaitingKey x) ∨ ∃ k, faultOf i s = some k)

/-- Faults are raised exactly where the spec lists them, one condition an instruction, and are precise: the faulting
instruction changes the run state and nothing else; an instruction with no fault condition met never halts the machine
(R242 to R244, R247, R249; what the record holds is the spec's decision D16). -/
def Obligations.FaultsAreExactAndPrecise : Prop :=
  ∀ (i : Instr) (s : State),
    match faultOf i s with
    | some k => k.fatal = true ∧ exec i s = .next { s with run := .halted (recordOf k i s) }
    | none => ∃ t, exec i s = .next t ∧ ∀ r, t.run = .halted r → s.run = .halted r

/-- The kept keypad snapshot is hidden: no instruction reads it or writes it (R31). -/
def Obligations.NoInstructionReadsTheKeptSnapshot : Prop :=
  ∀ (i : Instr) (s : State) (ks : Keypad),
    exec i { s with keysPrev := ks } = mapNext (fun t => { t with keysPrev := ks }) (exec i s)

/-- No instruction reads the sound timer (R27): what an instruction does is the same for every value of ST, but that ST
keeps its value where the instruction is not LD ST, Vx, which overwrites it. -/
def Obligations.NoInstructionReadsTheSoundTimer : Prop :=
  (∀ (i : Instr) (s : State) (b : Byte), (∀ x, i ≠ .ldStVx x) →
    exec i { s with st := b } = mapNext (fun t => { t with st := b }) (exec i s)) ∧
  ∀ (x : Nibble) (s : State) (b : Byte), exec (.ldStVx x) { s with st := b } = exec (.ldStVx x) s

/-! ## Control flow (41_control_flow.md) -/

/-- RET (R130): it pops the most recently pushed address into the pc; on an empty stack it halts the machine with
StackUnderflow, the pc left at the instruction's address + 2 (the record is R32's, the spec's decision D16). -/
def Obligations.ReturnPopsIntoThePc : Prop :=
  decode 0x00EE = .known .ret ∧
    (∀ (s : State) (l : List Word) (a : Word), s.stack = l ++ [a] →
      ∃ t, exec .ret s = .next t ∧ t.pc = a ∧ t.stack = l ∧ Unchanged [.pc, .stack] s t) ∧
    (∀ s : State, s.stack = [] →
      ∃ t, exec .ret s = .next t ∧ Unchanged [.run] s t ∧
        t.run = .halted { kind := .stackUnderflow, instrAddr := s.pc - 2, opcode := some 0x00EE, addr := none })

/-- JP (R131): the pc becomes the address in the word, whatever the registers hold. -/
def Obligations.JumpSetsThePc : Prop :=
  ∀ (s : State) (nnn : Addr), decode (0x1#4 ++ nnn) = .known (.jp nnn) ∧
    ∃ t, exec (.jp nnn) s = .next t ∧ t.pc.toNat = nnn.toNat ∧ Unchanged [.pc] s t

/-- CALL (R132): it pushes the address of the next instruction and jumps; on a stack at capacity it halts the machine
with StackOverflow, stack and pc unchanged from after the fetch (the record is R32's, the spec's decision D16). -/
def Obligations.CallPushesAndJumps : Prop :=
  ∀ (s : State) (nnn : Addr), decode (0x2#4 ++ nnn) = .known (.call nnn) ∧
    (s.stack.length ≠ s.cfg.stackDepth →
      ∃ t, exec (.call nnn) s = .next t ∧ t.pc.toNat = nnn.toNat ∧ t.stack = s.stack ++ [s.pc] ∧
        Unchanged [.pc, .stack] s t) ∧
    (s.stack.length = s.cfg.stackDepth →
      ∃ t, exec (.call nnn) s = .next t ∧ Unchanged [.run] s t ∧
        t.run = .halted { kind := .stackOverflow, instrAddr := s.pc - 2, opcode := some (0x2#4 ++ nnn), addr := none })

/-- A call and the return that matches it, whatever the pc is in between, leave the pc at the address the call pushed
and everything else as it was before the call (R130, R132). -/
def Obligations.CallThenReturnResumes : Prop :=
  ∀ (s : State) (nnn : Addr) (pc : Word), s.stack.length ≠ s.cfg.stackDepth →
    ∃ t, exec (.call nnn) s = .next t ∧ exec .ret { t with pc := pc } = .next s

/-- SE and SNE with an immediate byte (R133, R134): the pc moves by 2 more exactly when Vx equals the byte of the word,
or differs from it. -/
def Obligations.SkipsComparingWithAByte : Prop :=
  ∀ (s : State) (x : Nibble) (nn : Byte),
    (decode (0x3#4 ++ x ++ nn) = .known (.seImm x nn) ∧
      ∃ t, exec (.seImm x nn) s = .next t ∧ t.pc = (if s.readV x = nn then s.pc + 2 else s.pc) ∧ Unchanged [.pc] s t) ∧
    (decode (0x4#4 ++ x ++ nn) = .known (.sneImm x nn) ∧
      ∃ t, exec (.sneImm x nn) s = .next t ∧ t.pc = (if s.readV x = nn then s.pc else s.pc + 2) ∧ Unchanged [.pc] s t)

/-- SE and SNE with two registers (R135, R136): the pc moves by 2 more exactly when Vx and Vy are equal, or differ; a
word 5XYN or 9XYN with N not 0 is UNKNOWN (the spec's decision D9). -/
def Obligations.SkipsComparingRegisters : Prop :=
  ∀ (s : State) (x y n : Nibble),
    (decode (0x5#4 ++ x ++ y ++ 0x0#4) = .known (.seReg x y) ∧
      ∃ t, exec (.seReg x y) s = .next t ∧ t.pc = (if s.readV x = s.readV y then s.pc + 2 else s.pc) ∧
        Unchanged [.pc] s t) ∧
    (decode (0x9#4 ++ x ++ y ++ 0x0#4) = .known (.sneReg x y) ∧
      ∃ t, exec (.sneReg x y) s = .next t ∧ t.pc = (if s.readV x = s.readV y then s.pc else s.pc + 2) ∧
        Unchanged [.pc] s t) ∧
    (n ≠ 0 → decode (0x5#4 ++ x ++ y ++ n) = .unknown (0x5#4 ++ x ++ y ++ n) ∧
      decode (0x9#4 ++ x ++ y ++ n) = .unknown (0x9#4 ++ x ++ y ++ n))

/-- JP V0 (R137): the pc becomes the sum of the address and V0, reduced modulo 0x1000. -/
def Obligations.JumpWithOffsetAddsV0 : Prop :=
  ∀ (s : State) (nnn : Addr), decode (0xB#4 ++ nnn) = .known (.jpV0 nnn) ∧
    ∃ t, exec (.jpV0 nnn) s = .next t ∧ t.pc.toNat = (nnn.toNat + (s.readV 0).toNat) % 0x1000 ∧ Unchanged [.pc] s t

/-! ## The ALU (42_alu.md) -/

/-- LD Vx, byte (R151). -/
def Obligations.LoadImmediateWritesVx : Prop :=
  ∀ (s : State) (x : Nibble) (nn : Byte), decode (0x6#4 ++ x ++ nn) = .known (.ldImm x nn) ∧
    ∃ t, exec (.ldImm x nn) s = .next t ∧ (∀ r, t.readV r = if r = x then nn else s.readV r) ∧ Unchanged [.v] s t

/-- ADD Vx, byte (R152): the sum modulo 256, and no flag: VF keeps its value unless it is Vx. -/
def Obligations.AddImmediateSetsNoFlag : Prop :=
  ∀ (s : State) (x : Nibble) (nn : Byte), decode (0x7#4 ++ x ++ nn) = .known (.addImm x nn) ∧
    ∃ t, exec (.addImm x nn) s = .next t ∧ (t.readV x).toNat = ((s.readV x).toNat + nn.toNat) % 256 ∧
      (∀ r, r ≠ x → t.readV r = s.readV r) ∧ Unchanged [.v] s t

/-- LD, OR, AND, XOR with two registers (R153 to R156): bit by bit in Vx, and no flag: VF keeps its value unless it is
Vx. -/
def Obligations.LogicWritesVxAndNoFlag : Prop :=
  ∀ (s : State) (x y : Nibble),
    (decode (0x8#4 ++ x ++ y ++ 0x0#4) = .known (.ldReg x y) ∧
      ∃ t, exec (.ldReg x y) s = .next t ∧ (∀ r, t.readV r = if r = x then s.readV y else s.readV r) ∧
        Unchanged [.v] s t) ∧
    (decode (0x8#4 ++ x ++ y ++ 0x1#4) = .known (.orReg x y) ∧
      ∃ t, exec (.orReg x y) s = .next t ∧ (∀ r, r ≠ x → t.readV r = s.readV r) ∧ Unchanged [.v] s t ∧
        ∀ b < 8, (t.readV x).getLsbD b = ((s.readV x).getLsbD b || (s.readV y).getLsbD b)) ∧
    (decode (0x8#4 ++ x ++ y ++ 0x2#4) = .known (.andReg x y) ∧
      ∃ t, exec (.andReg x y) s = .next t ∧ (∀ r, r ≠ x → t.readV r = s.readV r) ∧ Unchanged [.v] s t ∧
        ∀ b < 8, (t.readV x).getLsbD b = ((s.readV x).getLsbD b && (s.readV y).getLsbD b)) ∧
    (decode (0x8#4 ++ x ++ y ++ 0x3#4) = .known (.xorReg x y) ∧
      ∃ t, exec (.xorReg x y) s = .next t ∧ (∀ r, r ≠ x → t.readV r = s.readV r) ∧ Unchanged [.v] s t ∧
        ∀ b < 8, (t.readV x).getLsbD b = Bool.xor ((s.readV x).getLsbD b) ((s.readV y).getLsbD b))

/-- ADD Vx, Vy (R157): Vx gets the sum modulo 256 and VF the carry, computed from the sum before it is truncated; where
Vx is VF, the flag stays under FLAG_LAST and the result under RESULT_LAST. -/
def Obligations.AddRegistersSetsCarry : Prop :=
  ∀ (s : State) (x y : Nibble), decode (0x8#4 ++ x ++ y ++ 0x4#4) = .known (.addReg x y) ∧
    ∃ t, exec (.addReg x y) s = .next t ∧
      ((x ≠ 0xF ∨ s.cfg.vfOrder = .resultLast) →
        (t.readV x).toNat = ((s.readV x).toNat + (s.readV y).toNat) % 256) ∧
      ((x ≠ 0xF ∨ s.cfg.vfOrder = .flagLast) →
        t.readV 0xF = if 255 < (s.readV x).toNat + (s.readV y).toNat then 1 else 0) ∧
      (∀ r, r ≠ x → r ≠ 0xF → t.readV r = s.readV r) ∧ Unchanged [.v] s t

/-- SUB and SUBN (R158, R160): Vx gets Vx - Vy, or Vy - Vx, modulo 256, and VF is 1 exactly when that needs no borrow;
where Vx is VF, the flag stays under FLAG_LAST and the result under RESULT_LAST. -/
def Obligations.SubtractionsSetNoBorrow : Prop :=
  ∀ (s : State) (x y : Nibble),
    (decode (0x8#4 ++ x ++ y ++ 0x5#4) = .known (.sub x y) ∧
      ∃ t, exec (.sub x y) s = .next t ∧
        ((x ≠ 0xF ∨ s.cfg.vfOrder = .resultLast) →
          (t.readV x).toNat = ((s.readV x).toNat + 256 - (s.readV y).toNat) % 256) ∧
        ((x ≠ 0xF ∨ s.cfg.vfOrder = .flagLast) →
          t.readV 0xF = if (s.readV y).toNat ≤ (s.readV x).toNat then 1 else 0) ∧
        (∀ r, r ≠ x → r ≠ 0xF → t.readV r = s.readV r) ∧ Unchanged [.v] s t) ∧
    (decode (0x8#4 ++ x ++ y ++ 0x7#4) = .known (.subn x y) ∧
      ∃ t, exec (.subn x y) s = .next t ∧
        ((x ≠ 0xF ∨ s.cfg.vfOrder = .resultLast) →
          (t.readV x).toNat = ((s.readV y).toNat + 256 - (s.readV x).toNat) % 256) ∧
        ((x ≠ 0xF ∨ s.cfg.vfOrder = .flagLast) →
          t.readV 0xF = if (s.readV x).toNat ≤ (s.readV y).toNat then 1 else 0) ∧
        (∀ r, r ≠ x → r ≠ 0xF → t.readV r = s.readV r) ∧ Unchanged [.v] s t)

/-- SHR and SHL (R159, R161): the source is Vy, or Vx under SHIFT_SOURCE = VX; Vx gets half of it, or twice it modulo
256; VF gets the bit shifted out, bit 0 or bit 7 of the source; the source register, where it is neither Vx nor VF, is
left as it was. The parameters are the spec's decisions D6 and D7. -/
def Obligations.ShiftsSetTheBitShiftedOut : Prop :=
  ∀ (s : State) (x y : Nibble) (src : Byte),
    src = (if s.cfg.shiftSource = .vy then s.readV y else s.readV x) →
    (decode (0x8#4 ++ x ++ y ++ 0x6#4) = .known (.shr x y) ∧
      ∃ t, exec (.shr x y) s = .next t ∧
        ((x ≠ 0xF ∨ s.cfg.vfOrder = .resultLast) → (t.readV x).toNat = src.toNat / 2) ∧
        ((x ≠ 0xF ∨ s.cfg.vfOrder = .flagLast) → (t.readV 0xF).toNat = src.toNat % 2) ∧
        (∀ r, r ≠ x → r ≠ 0xF → t.readV r = s.readV r) ∧ Unchanged [.v] s t) ∧
    (decode (0x8#4 ++ x ++ y ++ 0xE#4) = .known (.shl x y) ∧
      ∃ t, exec (.shl x y) s = .next t ∧
        ((x ≠ 0xF ∨ s.cfg.vfOrder = .resultLast) → (t.readV x).toNat = 2 * src.toNat % 256) ∧
        ((x ≠ 0xF ∨ s.cfg.vfOrder = .flagLast) → (t.readV 0xF).toNat = src.toNat / 128) ∧
        (∀ r, r ≠ x → r ≠ 0xF → t.readV r = s.readV r) ∧ Unchanged [.v] s t)

/-- RND (R162): Vx gets the step's random byte, whatever it is, masked by the byte of the word: a bit of the result is
set exactly where both have it (the unconstrained byte is the spec's decision D28). -/
def Obligations.RandomByteIsMasked : Prop :=
  ∀ (s : State) (x : Nibble) (nn : Byte), decode (0xC#4 ++ x ++ nn) = .known (.rnd x nn) ∧
    ∃ t, exec (.rnd x nn) s = .next t ∧ (∀ b < 8, (t.readV x).getLsbD b = (s.env.rnd.getLsbD b && nn.getLsbD b)) ∧
      (∀ r, r ≠ x → t.readV r = s.readV r) ∧ Unchanged [.v] s t

/-! ## The address register and memory (43_index_and_memory.md) -/

/-- LD I, addr (R180). -/
def Obligations.LoadIndexWritesI : Prop :=
  ∀ (s : State) (nnn : Addr), decode (0xA#4 ++ nnn) = .known (.ldI nnn) ∧
    ∃ t, exec (.ldI nnn) s = .next t ∧ t.i = nnn ∧ Unchanged [.i] s t

/-- ADD I, Vx (R181): 12-bit wraparound, and no flag. -/
def Obligations.AddIndexWrapsWithoutAFlag : Prop :=
  ∀ (s : State) (x : Nibble), decode (0xF#4 ++ x ++ 0x1E#8) = .known (.addI x) ∧
    ∃ t, exec (.addI x) s = .next t ∧ t.i.toNat = (s.i.toNat + (s.readV x).toNat) % 0x1000 ∧ Unchanged [.i] s t

/-- LD F, Vx (R182): I becomes 5 times the whole byte Vx (not its low nibble: the spec's decision D13). -/
def Obligations.LoadFontAddressUsesTheWholeByte : Prop :=
  ∀ (s : State) (x : Nibble), decode (0xF#4 ++ x ++ 0x29#8) = .known (.ldF x) ∧
    ∃ t, exec (.ldF x) s = .next t ∧ t.i.toNat = 5 * (s.readV x).toNat ∧ Unchanged [.i] s t

/-- LD B, Vx (R183): the hundreds, tens and units digits of Vx go to I, I + 1 and I + 2, and no other byte changes; where
I + 2 lies beyond memory, MemoryOutOfBounds and no byte is written (the record is R32's, the spec's decision D16). The
digits' order is the spec's general knowledge (log entry 17). -/
def Obligations.StoreBcdWritesThreeDigits : Prop :=
  ∀ (s : State) (x : Nibble), decode (0xF#4 ++ x ++ 0x33#8) = .known (.ldB x) ∧
    (s.i.toNat + 2 < 4096 →
      ∃ t, exec (.ldB x) s = .next t ∧ (t.byteAt s.i.toNat).toNat = (s.readV x).toNat / 100 ∧
        (t.byteAt (s.i.toNat + 1)).toNat = (s.readV x).toNat / 10 % 10 ∧
        (t.byteAt (s.i.toNat + 2)).toNat = (s.readV x).toNat % 10 ∧
        (∀ a, (a < s.i.toNat ∨ s.i.toNat + 2 < a) → t.byteAt a = s.byteAt a) ∧ Unchanged [.mem] s t) ∧
    (4096 ≤ s.i.toNat + 2 →
      ∃ t, exec (.ldB x) s = .next t ∧ Unchanged [.run] s t ∧
        t.run = .halted { kind := .memoryOutOfBounds, instrAddr := s.pc - 2, opcode := some (0xF#4 ++ x ++ 0x33#8),
                          addr := some 0x1000 })

/-- LD [I], Vx (R184): V0 to Vx go to memory from I on, and no other byte changes; where I + x lies beyond memory,
MemoryOutOfBounds and no byte is written (the record is R32's, the spec's decision D16). I is unchanged (the spec's
decision D14). -/
def Obligations.RegisterDumpStoresV0ToVx : Prop :=
  ∀ (s : State) (x : Nibble), decode (0xF#4 ++ x ++ 0x55#8) = .known (.ldMemVx x) ∧
    (s.i.toNat + x.toNat < 4096 →
      ∃ t, exec (.ldMemVx x) s = .next t ∧
        (∀ k : Nibble, k.toNat ≤ x.toNat → t.byteAt (s.i.toNat + k.toNat) = s.readV k) ∧
        (∀ a, (a < s.i.toNat ∨ s.i.toNat + x.toNat < a) → t.byteAt a = s.byteAt a) ∧ Unchanged [.mem] s t) ∧
    (4096 ≤ s.i.toNat + x.toNat →
      ∃ t, exec (.ldMemVx x) s = .next t ∧ Unchanged [.run] s t ∧
        t.run = .halted { kind := .memoryOutOfBounds, instrAddr := s.pc - 2, opcode := some (0xF#4 ++ x ++ 0x55#8),
                          addr := some 0x1000 })

/-- LD Vx, [I] (R185): V0 to Vx are loaded from I on, and the registers above x keep their values; where I + x lies
beyond memory, MemoryOutOfBounds and no register is written (the record is R32's, the spec's decision D16). I is
unchanged (the spec's decision D14). -/
def Obligations.RegisterLoadFillsV0ToVx : Prop :=
  ∀ (s : State) (x : Nibble), decode (0xF#4 ++ x ++ 0x65#8) = .known (.ldVxMem x) ∧
    (s.i.toNat + x.toNat < 4096 →
      ∃ t, exec (.ldVxMem x) s = .next t ∧
        (∀ r : Nibble, t.readV r = if r.toNat ≤ x.toNat then s.byteAt (s.i.toNat + r.toNat) else s.readV r) ∧
        Unchanged [.v] s t) ∧
    (4096 ≤ s.i.toNat + x.toNat →
      ∃ t, exec (.ldVxMem x) s = .next t ∧ Unchanged [.run] s t ∧
        t.run = .halted { kind := .memoryOutOfBounds, instrAddr := s.pc - 2, opcode := some (0xF#4 ++ x ++ 0x65#8),
                          addr := some 0x1000 })

/-- Self-modifying code (R66, R274; the spec's decision D25), over two CPU steps: after a step that runs FX33 or FX55
without a fault, the next one fetches, at the instruction right after it, the two bytes as the store left them, high byte
first, whether the store covers both of them, one or none; it runs the instruction they decode to, and on an unknown
opcode only advances the pc. The whole state after the second step is given, as in `StepRunsTheDecodedInstruction`
(that the keypad snapshot is kept is the spec's decision D12). -/
def Obligations.StoreIsSeenByTheNextFetch : Prop :=
  ∀ (s t : State) (store : Instr), ((∃ x, store = .ldB x) ∨ ∃ x, store = .ldMemVx x) →
    s.env.turn = .cpu → s.run = .running → s.pc.toNat + 3 < 4096 →
    decode (s.byteAt s.pc.toNat ++ s.byteAt (s.pc.toNat + 1)) = .known store → faultOf store s = none →
    step s = .next t → t.env.turn = .cpu →
    match decode (byteAfterStore store s (s.pc.toNat + 2) ++ byteAfterStore store s (s.pc.toNat + 3)) with
    | .known i => ∃ u, exec i { t with pc := s.pc + 4 } = .next u ∧
        step t = .next { u with
          keysPrev := if u.run.isHalted = true then u.keysPrev else t.env.keys
          script := t.script.tail
          draws := t.draws + 1 }
    | .unknown _ =>
        step t = .next { t with
          pc := s.pc + 4
          keysPrev := t.env.keys
          script := t.script.tail
          draws := t.draws + 1 }

/-! ## The framebuffer (44_display.md) -/

/-- CLS (R202): every pixel clear, and nothing else changes. -/
def Obligations.ClearScreenClearsEveryPixel : Prop :=
  ∀ s : State, decode 0x00E0 = .known .cls ∧
    ∃ t, exec .cls s = .next t ∧ (∀ c r, t.fb.pixel c r = false) ∧ Unchanged [.fb] s t

/-- DRW (R203), the whole effect in closed form: where no sprite row lies beyond memory, a pixel flips exactly when a set
bit of the sprite lies on it, coordinates wrapping at the edges; VF is 1 exactly when a pixel so covered was set, else 0;
nothing else changes. Where a row lies beyond memory, MemoryOutOfBounds and no pixel or register changes; what the fault
record holds is R32's, the spec's decision D16 (log entries 11 and 18). That bit 7 is the leftmost is the spec's general
knowledge (log entry 17). -/
def Obligations.DrawXorsTheSpriteAndReportsCollision : Prop :=
  ∀ (s : State) (x y n : Nibble), decode (0xD#4 ++ x ++ y ++ n) = .known (.drw x y n) ∧
    ((n = 0 ∨ s.i.toNat + n.toNat - 1 < 4096) →
      ∃ t, exec (.drw x y n) s = .next t ∧
        (∀ c < 64, ∀ r < 32,
          (spriteCovers s x y n c r → t.fb.pixel c r = !s.fb.pixel c r) ∧
          (¬ spriteCovers s x y n c r → t.fb.pixel c r = s.fb.pixel c r)) ∧
        ((∃ c < 64, ∃ r < 32, spriteCovers s x y n c r ∧ s.fb.pixel c r = true) → t.readV 0xF = 1) ∧
        ((∀ c < 64, ∀ r < 32, spriteCovers s x y n c r → s.fb.pixel c r = false) → t.readV 0xF = 0) ∧
        (∀ r, r ≠ 0xF → t.readV r = s.readV r) ∧ Unchanged [.fb, .v] s t) ∧
    (n ≠ 0 → 4096 ≤ s.i.toNat + n.toNat - 1 →
      ∃ t, exec (.drw x y n) s = .next t ∧ Unchanged [.run] s t ∧
        t.run = .halted { kind := .memoryOutOfBounds, instrAddr := s.pc - 2, opcode := some (0xD#4 ++ x ++ y ++ n),
                          addr := some 0x1000 })

/-- Drawing the same sprite at the same place twice restores the framebuffer, and the second draw reports a collision
exactly when the first turned a pixel from clear to set (R204 (a)); x and y are not VF, which the first draw writes. -/
def Obligations.DrawingTwiceRestoresTheFramebuffer : Prop :=
  ∀ (s t : State) (x y n : Nibble), x ≠ 0xF → y ≠ 0xF → (n = 0 ∨ s.i.toNat + n.toNat - 1 < 4096) →
    exec (.drw x y n) s = .next t →
    ∃ u, exec (.drw x y n) t = .next u ∧ u.fb = s.fb ∧
      ((∃ c r, s.fb.pixel c r = false ∧ t.fb.pixel c r = true) → u.readV 0xF = 1) ∧
      ((∀ c r, s.fb.pixel c r = false → t.fb.pixel c r = false) → u.readV 0xF = 0)

/-! ## The keypad and the timers (45_keypad_and_timers.md) -/

/-- SKP and SKNP (R221, R222): they skip exactly when the key that Vx names is down in this step's snapshot, or is not. A
key index of 16 or more sees the step's unconstrained boolean under KEY_OOB = DRAW and the key of its low nibble under
LOW_NIBBLE (R220; the spec's decision D10). -/
def Obligations.KeySkipsSampleTheSnapshot : Prop :=
  ∀ (s : State) (x : Nibble) (down : Bool),
    down = (if (s.readV x).toNat < 16 ∨ s.cfg.keyOob = .lowNibble
      then keyDown s.env.keys (BitVec.ofNat 4 ((s.readV x).toNat % 16)) else s.env.oobKey) →
    (decode (0xE#4 ++ x ++ 0x9E#8) = .known (.skp x) ∧
      ∃ t, exec (.skp x) s = .next t ∧ t.pc = (if down = true then s.pc + 2 else s.pc) ∧ Unchanged [.pc] s t) ∧
    (decode (0xE#4 ++ x ++ 0xA1#8) = .known (.sknp x) ∧
      ∃ t, exec (.sknp x) s = .next t ∧ t.pc = (if down = true then s.pc else s.pc + 2) ∧ Unchanged [.pc] s t)

/-- LD Vx, DT (R223). -/
def Obligations.ReadDelayTimerWritesVx : Prop :=
  ∀ (s : State) (x : Nibble), decode (0xF#4 ++ x ++ 0x07#8) = .known (.ldVxDt x) ∧
    ∃ t, exec (.ldVxDt x) s = .next t ∧ (∀ r, t.readV r = if r = x then s.dt else s.readV r) ∧ Unchanged [.v] s t

/-- LD Vx, K (R224): the machine waits for a key; Vx is not written and the pc stays at the instruction's address + 2. -/
def Obligations.WaitForKeyStartsAWait : Prop :=
  ∀ (s : State) (x : Nibble), decode (0xF#4 ++ x ++ 0x0A#8) = .known (.ldVxK x) ∧
    ∃ t, exec (.ldVxK x) s = .next t ∧ t.run = .awaitingKey x ∧ Unchanged [.run] s t

/-- LD DT, Vx (R226). -/
def Obligations.SetDelayTimerCopiesVx : Prop :=
  ∀ (s : State) (x : Nibble), decode (0xF#4 ++ x ++ 0x15#8) = .known (.ldDtVx x) ∧
    ∃ t, exec (.ldDtVx x) s = .next t ∧ t.dt = s.readV x ∧ Unchanged [.dt] s t

/-- LD ST, Vx (R227): ST becomes Vx, and sound is then active exactly until as many ticks have passed. -/
def Obligations.SetSoundTimerSoundsForVxTicks : Prop :=
  ∀ (s : State) (x : Nibble), decode (0xF#4 ++ x ++ 0x18#8) = .known (.ldStVx x) ∧
    ∃ t, exec (.ldStVx x) s = .next t ∧ t.st = s.readV x ∧ Unchanged [.st] s t ∧
      ∀ n : Nat, (Nat.iterate timerTick n t).soundActive = decide (n < (s.readV x).toNat)
end

