-- ==== Sys2Proof/Laws/Memory.lean ====
section
/-! SUPPORT. Memory: a read after a write, and every operation keeps the canonical form. -/

namespace Sys2Proof.Machine

/-- The addresses of a memory are above `a`. -/
def Memory.above (m : Memory) (a : Nat) : Prop := ∀ c ∈ m, a < c.1

theorem Memory.listed_above {m : Memory} {a k : Nat} (h : m.above a) (hk : k ≤ a) : m.listed k = none := by
  induction m with
  | nil => rfl
  | cons c m ih =>
    have hc := h c (List.mem_cons_self ..)
    simp only [Memory.listed]
    rw [if_neg (by omega)]
    exact ih fun d hd => h d (List.mem_cons_of_mem _ hd)

theorem Memory.listed_insert (m : Memory) (a k : Nat) (w : Byte) :
    (m.insert a w).listed k = if k = a then some w else m.listed k := by
  induction m with
  | nil => simp [Memory.insert, Memory.listed]
  | cons c m ih =>
    simp only [Memory.insert]
    split
    · simp only [Memory.listed]
    · split
      · simp only [Memory.listed]; split <;> [rfl; (subst_vars; simp_all)]
      · next hne =>
        simp only [Memory.listed, ih]
        split
        · next e => rw [if_neg (by omega)]
        · rfl

theorem Memory.listed_erase (m : Memory) (a k : Nat) :
    (m.erase a).listed k = if k = a then none else m.listed k := by
  induction m with
  | nil => simp [Memory.erase, Memory.listed]
  | cons c m ih =>
    simp only [Memory.erase]
    split
    · next e =>
      subst e
      simp only [ih, Memory.listed]
      split <;> rfl
    · simp only [Memory.listed, ih]
      split
      · rw [if_neg (by omega)]
      · rfl

theorem Memory.mem_insert {m : Memory} {a : Nat} {w : Byte} {c : Host.Cell} (h : c ∈ m.insert a w) :
    c = (a, w) ∨ c ∈ m := by
  induction m with
  | nil => simpa [Memory.insert] using h
  | cons d m ih =>
    simp only [Memory.insert] at h
    split at h
    · simpa using h
    · split at h
      · simp only [List.mem_cons] at h ⊢; tauto
      · simp only [List.mem_cons] at h ⊢
        rcases h with h | h
        · exact .inr (.inl h)
        · exact (ih h).imp_right .inr

theorem Memory.mem_erase {m : Memory} {a : Nat} {c : Host.Cell} (h : c ∈ m.erase a) : c ∈ m := by
  induction m with
  | nil => exact h
  | cons d m ih =>
    simp only [Memory.erase] at h
    split at h
    · exact List.mem_cons_of_mem _ (ih h)
    · rcases List.mem_cons.mp h with h | h
      · exact h ▸ List.mem_cons_self ..
      · exact List.mem_cons_of_mem _ (ih h)

theorem Memory.insert_sorted {m : Memory} (h : m.Pairwise fun c d => c.1 < d.1) (a : Nat) (w : Byte) :
    (m.insert a w).Pairwise fun c d => c.1 < d.1 := by
  induction m with
  | nil => exact List.pairwise_singleton _ _
  | cons d m ih =>
    obtain ⟨hd, hm⟩ := List.pairwise_cons.mp h
    simp only [Memory.insert]
    split
    · next hlt =>
      refine List.pairwise_cons.mpr ⟨fun c hc => ?_, h⟩
      rcases List.mem_cons.mp hc with rfl | hc
      · exact hlt
      · exact Nat.lt_trans hlt (hd c hc)
    · split
      · next e => subst e; exact List.pairwise_cons.mpr ⟨hd, hm⟩
      · refine List.pairwise_cons.mpr ⟨fun c hc => ?_, ih hm⟩
        rcases Memory.mem_insert hc with rfl | hc
        · simp only; omega
        · exact hd c hc

theorem Memory.erase_sorted {m : Memory} (h : m.Pairwise fun c d => c.1 < d.1) (a : Nat) :
    (m.erase a).Pairwise fun c d => c.1 < d.1 := by
  induction m with
  | nil => exact h
  | cons d m ih =>
    obtain ⟨hd, hm⟩ := List.pairwise_cons.mp h
    simp only [Memory.erase]
    split
    · exact ih hm
    · exact List.pairwise_cons.mpr ⟨fun c hc => hd c (Memory.mem_erase hc), ih hm⟩

/-- A write keeps the canonical form. -/
theorem Memory.write_wf {m : Memory} (h : m.wf) (a : Nat) (w : Byte) : (m.write a w).wf := by
  unfold Memory.write
  split
  · next ha =>
    split
    · exact ⟨Memory.erase_sorted h.1 a, fun c hc => h.2 c (Memory.mem_erase hc)⟩
    · next hne =>
      refine ⟨Memory.insert_sorted h.1 a w, fun c hc => ?_⟩
      rcases Memory.mem_insert hc with rfl | hc
      · exact ⟨ha, hne⟩
      · exact h.2 c hc
  · exact h

/-- A byte read after a write (R62): the byte written at its address, every other one as before. -/
theorem Memory.byte_write (m : Memory) {a : Nat} (ha : a < Config.memSize) (w : Byte) (k : Nat) :
    (m.write a w).byte k = if k = a then w else m.byte k := by
  simp only [Memory.write, if_pos ha, Memory.byte, Memory.known]
  split
  · next e =>
    rw [Memory.listed_erase]
    by_cases hk : k = a
    · subst hk; simp [e]
    · simp [hk]
  · rw [Memory.listed_insert]; split <;> simp_all

/-- A write at another address leaves a byte as it was, wherever the write goes. -/
theorem Memory.byte_write_other (m : Memory) {a k : Nat} (hk : k ≠ a) (w : Byte) : (m.write a w).byte k = m.byte k := by
  by_cases ha : a < Config.memSize
  · rw [Memory.byte_write m ha, if_neg hk]
  · rw [Memory.write, if_neg ha]

theorem Memory.writeBytes_wf {m : Memory} (h : m.wf) (a : Nat) (ws : List Byte) : (m.writeBytes a ws).wf := by
  induction ws generalizing m a with
  | nil => exact h
  | cons w ws ih => exact ih (Memory.write_wf h a w) (a + 1)

theorem Memory.writeCells_wf {m : Memory} (h : m.wf) (cells : List Host.Cell) : (m.writeCells cells).wf := by
  unfold Memory.writeCells
  induction cells generalizing m with
  | nil => exact h
  | cons c cells ih => exact ih (Memory.write_wf h c.1 c.2)

/-- Bytes written from `a` on leave every byte outside them as it was. -/
theorem Memory.byte_writeBytes_outside (m : Memory) (a : Nat) (ws : List Byte) {k : Nat}
    (hk : k < a ∨ a + ws.length ≤ k) : (m.writeBytes a ws).byte k = m.byte k := by
  induction ws generalizing m a with
  | nil => rfl
  | cons w ws ih =>
    simp only [List.length_cons] at hk
    simp only [Memory.writeBytes]
    rw [ih (m.write a w) (a + 1) (by omega), Memory.byte_write_other m (by omega)]

/-- A byte read after bytes are written from `a` on, all of them inside memory. -/
theorem Memory.byte_writeBytes (m : Memory) {a : Nat} {ws : List Byte}
    (ha : a + ws.length ≤ Config.memSize) (k : Nat) :
    (m.writeBytes a ws).byte k = if a ≤ k then (ws[k - a]?).getD (m.byte k) else m.byte k := by
  induction ws generalizing m a with
  | nil => simp [Memory.writeBytes]
  | cons w ws ih =>
    simp only [List.length_cons] at ha
    simp only [Memory.writeBytes]
    rw [ih (m.write a w) (by omega), Memory.byte_write m (by omega)]
    rcases Nat.lt_trichotomy k a with hk | rfl | hk
    · rw [if_neg (by omega), if_neg (by omega), if_neg (by omega)]
    · rw [if_neg (by omega), if_pos rfl, if_pos (Nat.le_refl _)]; simp
    · rw [if_pos (by omega), if_neg (by omega), if_pos (by omega)]
      obtain ⟨j, rfl⟩ : ∃ j, k = a + 1 + j := ⟨k - (a + 1), by omega⟩
      simp [show a + 1 + j - a = j + 1 by omega]

/-- Canonical memories that know the same bytes are equal. -/
theorem Memory.known_ext {m n : Memory} (hm : m.wf) (hn : n.wf) (h : ∀ a, m.known a = n.known a) : m = n := by
  have hl : ∀ a, m.listed a = n.listed a := by
    have hne : ∀ {p : Memory}, p.wf → ∀ a w, p.listed a = some w → resetByte a ≠ some w := by
      intro p hp a w
      have : ∀ q : Memory, (∀ c ∈ q, resetByte c.1 ≠ some c.2) → q.listed a = some w → resetByte a ≠ some w := by
        intro q hq hw
        induction q with
        | nil => cases hw
        | cons c q ih =>
          simp only [Memory.listed] at hw
          split at hw
          · next e => cases hw; exact e ▸ hq c (List.mem_cons_self ..)
          · exact ih (fun d hd => hq d (List.mem_cons_of_mem _ hd)) hw
      exact this p fun c hc => (hp.2 c hc).2
    intro a
    have := h a
    simp only [Memory.known] at this
    cases e1 : m.listed a <;> cases e2 : n.listed a <;> simp [e1, e2] at this ⊢
    · exact hne hn a _ e2 this
    · exact hne hm a _ e1 this.symm
    · exact this
  have : ∀ p q : Memory, p.Pairwise (fun c d => c.1 < d.1) → q.Pairwise (fun c d => c.1 < d.1) →
      (∀ a, Memory.listed p a = Memory.listed q a) → p = q := by
    intro p
    induction p with
    | nil =>
      intro q _ _ e
      cases q with
      | nil => rfl
      | cons d q => have := e d.1; simp [Memory.listed] at this
    | cons c p ih =>
      intro q hp hq e
      cases q with
      | nil => have := e c.1; simp [Memory.listed] at this
      | cons d q =>
        obtain ⟨hc, hp⟩ := List.pairwise_cons.mp hp
        obtain ⟨hd, hq⟩ := List.pairwise_cons.mp hq
        have ec := e c.1
        have ed := e d.1
        simp only [Memory.listed, if_true] at ec ed
        rcases Nat.lt_trichotomy c.1 d.1 with hlt | heq | hlt
        · rw [if_neg (by omega), Memory.listed_above hd (by omega)] at ec; cases ec
        · rw [if_pos heq] at ec
          have hcd : c = d := Prod.ext heq (Option.some.inj ec)
          rw [← hcd] at hd e ⊢
          congr 1
          refine ih q hp hq fun a => ?_
          have ea := e a
          simp only [Memory.listed] at ea
          by_cases ha : a = c.1
          · rw [Memory.listed_above hc (Nat.le_of_eq ha), Memory.listed_above hd (Nat.le_of_eq ha)]
          · simpa [ha] using ea
        · rw [if_neg (by omega), Memory.listed_above hc (by omega)] at ed; cases ed
  exact this m n hm.1 hn.1 hl

/-- Memory right after reset is canonical. -/
theorem State.reset_mem_wf : Memory.wf State.reset.mem := by decide

end Sys2Proof.Machine
end

