-- ==== Sys2Proof/Laws/State.lean ====
section
/-! SUPPORT. One lemma for each field of State after each update, true by rfl, so that no proof unfolds an update. -/

namespace Sys2Proof.Machine

@[simp] theorem State.setMem_mem (s : State) (m : Memory) : (s.setMem m).mem = m := rfl
@[simp] theorem State.setMem_v (s : State) (m : Memory) : (s.setMem m).v = s.v := rfl
@[simp] theorem State.setMem_i (s : State) (m : Memory) : (s.setMem m).i = s.i := rfl
@[simp] theorem State.setMem_pc (s : State) (m : Memory) : (s.setMem m).pc = s.pc := rfl
@[simp] theorem State.setMem_stack (s : State) (m : Memory) : (s.setMem m).stack = s.stack := rfl
@[simp] theorem State.setMem_dt (s : State) (m : Memory) : (s.setMem m).dt = s.dt := rfl
@[simp] theorem State.setMem_st (s : State) (m : Memory) : (s.setMem m).st = s.st := rfl
@[simp] theorem State.setMem_fb (s : State) (m : Memory) : (s.setMem m).fb = s.fb := rfl
@[simp] theorem State.setMem_run (s : State) (m : Memory) : (s.setMem m).run = s.run := rfl
@[simp] theorem State.setMem_keysPrev (s : State) (m : Memory) : (s.setMem m).keysPrev = s.keysPrev := rfl
@[simp] theorem State.setMem_cfg (s : State) (m : Memory) : (s.setMem m).cfg = s.cfg := rfl
@[simp] theorem State.setMem_script (s : State) (m : Memory) : (s.setMem m).script = s.script := rfl
@[simp] theorem State.setMem_draws (s : State) (m : Memory) : (s.setMem m).draws = s.draws := rfl

@[simp] theorem State.setRegs_mem (s : State) (w : Vector Byte 16) : (s.setRegs w).mem = s.mem := rfl
@[simp] theorem State.setRegs_v (s : State) (w : Vector Byte 16) : (s.setRegs w).v = w := rfl
@[simp] theorem State.setRegs_i (s : State) (w : Vector Byte 16) : (s.setRegs w).i = s.i := rfl
@[simp] theorem State.setRegs_pc (s : State) (w : Vector Byte 16) : (s.setRegs w).pc = s.pc := rfl
@[simp] theorem State.setRegs_stack (s : State) (w : Vector Byte 16) : (s.setRegs w).stack = s.stack := rfl
@[simp] theorem State.setRegs_dt (s : State) (w : Vector Byte 16) : (s.setRegs w).dt = s.dt := rfl
@[simp] theorem State.setRegs_st (s : State) (w : Vector Byte 16) : (s.setRegs w).st = s.st := rfl
@[simp] theorem State.setRegs_fb (s : State) (w : Vector Byte 16) : (s.setRegs w).fb = s.fb := rfl
@[simp] theorem State.setRegs_run (s : State) (w : Vector Byte 16) : (s.setRegs w).run = s.run := rfl
@[simp] theorem State.setRegs_keysPrev (s : State) (w : Vector Byte 16) : (s.setRegs w).keysPrev = s.keysPrev := rfl
@[simp] theorem State.setRegs_cfg (s : State) (w : Vector Byte 16) : (s.setRegs w).cfg = s.cfg := rfl
@[simp] theorem State.setRegs_script (s : State) (w : Vector Byte 16) : (s.setRegs w).script = s.script := rfl
@[simp] theorem State.setRegs_draws (s : State) (w : Vector Byte 16) : (s.setRegs w).draws = s.draws := rfl

@[simp] theorem State.setI_mem (s : State) (a : Addr) : (s.setI a).mem = s.mem := rfl
@[simp] theorem State.setI_v (s : State) (a : Addr) : (s.setI a).v = s.v := rfl
@[simp] theorem State.setI_i (s : State) (a : Addr) : (s.setI a).i = a := rfl
@[simp] theorem State.setI_pc (s : State) (a : Addr) : (s.setI a).pc = s.pc := rfl
@[simp] theorem State.setI_stack (s : State) (a : Addr) : (s.setI a).stack = s.stack := rfl
@[simp] theorem State.setI_dt (s : State) (a : Addr) : (s.setI a).dt = s.dt := rfl
@[simp] theorem State.setI_st (s : State) (a : Addr) : (s.setI a).st = s.st := rfl
@[simp] theorem State.setI_fb (s : State) (a : Addr) : (s.setI a).fb = s.fb := rfl
@[simp] theorem State.setI_run (s : State) (a : Addr) : (s.setI a).run = s.run := rfl
@[simp] theorem State.setI_keysPrev (s : State) (a : Addr) : (s.setI a).keysPrev = s.keysPrev := rfl
@[simp] theorem State.setI_cfg (s : State) (a : Addr) : (s.setI a).cfg = s.cfg := rfl
@[simp] theorem State.setI_script (s : State) (a : Addr) : (s.setI a).script = s.script := rfl
@[simp] theorem State.setI_draws (s : State) (a : Addr) : (s.setI a).draws = s.draws := rfl

@[simp] theorem State.setPc_mem (s : State) (a : Word) : (s.setPc a).mem = s.mem := rfl
@[simp] theorem State.setPc_v (s : State) (a : Word) : (s.setPc a).v = s.v := rfl
@[simp] theorem State.setPc_i (s : State) (a : Word) : (s.setPc a).i = s.i := rfl
@[simp] theorem State.setPc_pc (s : State) (a : Word) : (s.setPc a).pc = a := rfl
@[simp] theorem State.setPc_stack (s : State) (a : Word) : (s.setPc a).stack = s.stack := rfl
@[simp] theorem State.setPc_dt (s : State) (a : Word) : (s.setPc a).dt = s.dt := rfl
@[simp] theorem State.setPc_st (s : State) (a : Word) : (s.setPc a).st = s.st := rfl
@[simp] theorem State.setPc_fb (s : State) (a : Word) : (s.setPc a).fb = s.fb := rfl
@[simp] theorem State.setPc_run (s : State) (a : Word) : (s.setPc a).run = s.run := rfl
@[simp] theorem State.setPc_keysPrev (s : State) (a : Word) : (s.setPc a).keysPrev = s.keysPrev := rfl
@[simp] theorem State.setPc_cfg (s : State) (a : Word) : (s.setPc a).cfg = s.cfg := rfl
@[simp] theorem State.setPc_script (s : State) (a : Word) : (s.setPc a).script = s.script := rfl
@[simp] theorem State.setPc_draws (s : State) (a : Word) : (s.setPc a).draws = s.draws := rfl

@[simp] theorem State.setStack_mem (s : State) (l : List Word) : (s.setStack l).mem = s.mem := rfl
@[simp] theorem State.setStack_v (s : State) (l : List Word) : (s.setStack l).v = s.v := rfl
@[simp] theorem State.setStack_i (s : State) (l : List Word) : (s.setStack l).i = s.i := rfl
@[simp] theorem State.setStack_pc (s : State) (l : List Word) : (s.setStack l).pc = s.pc := rfl
@[simp] theorem State.setStack_stack (s : State) (l : List Word) : (s.setStack l).stack = l := rfl
@[simp] theorem State.setStack_dt (s : State) (l : List Word) : (s.setStack l).dt = s.dt := rfl
@[simp] theorem State.setStack_st (s : State) (l : List Word) : (s.setStack l).st = s.st := rfl
@[simp] theorem State.setStack_fb (s : State) (l : List Word) : (s.setStack l).fb = s.fb := rfl
@[simp] theorem State.setStack_run (s : State) (l : List Word) : (s.setStack l).run = s.run := rfl
@[simp] theorem State.setStack_keysPrev (s : State) (l : List Word) : (s.setStack l).keysPrev = s.keysPrev := rfl
@[simp] theorem State.setStack_cfg (s : State) (l : List Word) : (s.setStack l).cfg = s.cfg := rfl
@[simp] theorem State.setStack_script (s : State) (l : List Word) : (s.setStack l).script = s.script := rfl
@[simp] theorem State.setStack_draws (s : State) (l : List Word) : (s.setStack l).draws = s.draws := rfl

@[simp] theorem State.setDt_mem (s : State) (b : Byte) : (s.setDt b).mem = s.mem := rfl
@[simp] theorem State.setDt_v (s : State) (b : Byte) : (s.setDt b).v = s.v := rfl
@[simp] theorem State.setDt_i (s : State) (b : Byte) : (s.setDt b).i = s.i := rfl
@[simp] theorem State.setDt_pc (s : State) (b : Byte) : (s.setDt b).pc = s.pc := rfl
@[simp] theorem State.setDt_stack (s : State) (b : Byte) : (s.setDt b).stack = s.stack := rfl
@[simp] theorem State.setDt_dt (s : State) (b : Byte) : (s.setDt b).dt = b := rfl
@[simp] theorem State.setDt_st (s : State) (b : Byte) : (s.setDt b).st = s.st := rfl
@[simp] theorem State.setDt_fb (s : State) (b : Byte) : (s.setDt b).fb = s.fb := rfl
@[simp] theorem State.setDt_run (s : State) (b : Byte) : (s.setDt b).run = s.run := rfl
@[simp] theorem State.setDt_keysPrev (s : State) (b : Byte) : (s.setDt b).keysPrev = s.keysPrev := rfl
@[simp] theorem State.setDt_cfg (s : State) (b : Byte) : (s.setDt b).cfg = s.cfg := rfl
@[simp] theorem State.setDt_script (s : State) (b : Byte) : (s.setDt b).script = s.script := rfl
@[simp] theorem State.setDt_draws (s : State) (b : Byte) : (s.setDt b).draws = s.draws := rfl

@[simp] theorem State.setSt_mem (s : State) (b : Byte) : (s.setSt b).mem = s.mem := rfl
@[simp] theorem State.setSt_v (s : State) (b : Byte) : (s.setSt b).v = s.v := rfl
@[simp] theorem State.setSt_i (s : State) (b : Byte) : (s.setSt b).i = s.i := rfl
@[simp] theorem State.setSt_pc (s : State) (b : Byte) : (s.setSt b).pc = s.pc := rfl
@[simp] theorem State.setSt_stack (s : State) (b : Byte) : (s.setSt b).stack = s.stack := rfl
@[simp] theorem State.setSt_dt (s : State) (b : Byte) : (s.setSt b).dt = s.dt := rfl
@[simp] theorem State.setSt_st (s : State) (b : Byte) : (s.setSt b).st = b := rfl
@[simp] theorem State.setSt_fb (s : State) (b : Byte) : (s.setSt b).fb = s.fb := rfl
@[simp] theorem State.setSt_run (s : State) (b : Byte) : (s.setSt b).run = s.run := rfl
@[simp] theorem State.setSt_keysPrev (s : State) (b : Byte) : (s.setSt b).keysPrev = s.keysPrev := rfl
@[simp] theorem State.setSt_cfg (s : State) (b : Byte) : (s.setSt b).cfg = s.cfg := rfl
@[simp] theorem State.setSt_script (s : State) (b : Byte) : (s.setSt b).script = s.script := rfl
@[simp] theorem State.setSt_draws (s : State) (b : Byte) : (s.setSt b).draws = s.draws := rfl

@[simp] theorem State.setFb_mem (s : State) (f : Frame) : (s.setFb f).mem = s.mem := rfl
@[simp] theorem State.setFb_v (s : State) (f : Frame) : (s.setFb f).v = s.v := rfl
@[simp] theorem State.setFb_i (s : State) (f : Frame) : (s.setFb f).i = s.i := rfl
@[simp] theorem State.setFb_pc (s : State) (f : Frame) : (s.setFb f).pc = s.pc := rfl
@[simp] theorem State.setFb_stack (s : State) (f : Frame) : (s.setFb f).stack = s.stack := rfl
@[simp] theorem State.setFb_dt (s : State) (f : Frame) : (s.setFb f).dt = s.dt := rfl
@[simp] theorem State.setFb_st (s : State) (f : Frame) : (s.setFb f).st = s.st := rfl
@[simp] theorem State.setFb_fb (s : State) (f : Frame) : (s.setFb f).fb = f := rfl
@[simp] theorem State.setFb_run (s : State) (f : Frame) : (s.setFb f).run = s.run := rfl
@[simp] theorem State.setFb_keysPrev (s : State) (f : Frame) : (s.setFb f).keysPrev = s.keysPrev := rfl
@[simp] theorem State.setFb_cfg (s : State) (f : Frame) : (s.setFb f).cfg = s.cfg := rfl
@[simp] theorem State.setFb_script (s : State) (f : Frame) : (s.setFb f).script = s.script := rfl
@[simp] theorem State.setFb_draws (s : State) (f : Frame) : (s.setFb f).draws = s.draws := rfl

@[simp] theorem State.setRun_mem (s : State) (r : Run) : (s.setRun r).mem = s.mem := rfl
@[simp] theorem State.setRun_v (s : State) (r : Run) : (s.setRun r).v = s.v := rfl
@[simp] theorem State.setRun_i (s : State) (r : Run) : (s.setRun r).i = s.i := rfl
@[simp] theorem State.setRun_pc (s : State) (r : Run) : (s.setRun r).pc = s.pc := rfl
@[simp] theorem State.setRun_stack (s : State) (r : Run) : (s.setRun r).stack = s.stack := rfl
@[simp] theorem State.setRun_dt (s : State) (r : Run) : (s.setRun r).dt = s.dt := rfl
@[simp] theorem State.setRun_st (s : State) (r : Run) : (s.setRun r).st = s.st := rfl
@[simp] theorem State.setRun_fb (s : State) (r : Run) : (s.setRun r).fb = s.fb := rfl
@[simp] theorem State.setRun_run (s : State) (r : Run) : (s.setRun r).run = r := rfl
@[simp] theorem State.setRun_keysPrev (s : State) (r : Run) : (s.setRun r).keysPrev = s.keysPrev := rfl
@[simp] theorem State.setRun_cfg (s : State) (r : Run) : (s.setRun r).cfg = s.cfg := rfl
@[simp] theorem State.setRun_script (s : State) (r : Run) : (s.setRun r).script = s.script := rfl
@[simp] theorem State.setRun_draws (s : State) (r : Run) : (s.setRun r).draws = s.draws := rfl

@[simp] theorem State.setKeysPrev_mem (s : State) (ks : Keypad) : (s.setKeysPrev ks).mem = s.mem := rfl
@[simp] theorem State.setKeysPrev_v (s : State) (ks : Keypad) : (s.setKeysPrev ks).v = s.v := rfl
@[simp] theorem State.setKeysPrev_i (s : State) (ks : Keypad) : (s.setKeysPrev ks).i = s.i := rfl
@[simp] theorem State.setKeysPrev_pc (s : State) (ks : Keypad) : (s.setKeysPrev ks).pc = s.pc := rfl
@[simp] theorem State.setKeysPrev_stack (s : State) (ks : Keypad) : (s.setKeysPrev ks).stack = s.stack := rfl
@[simp] theorem State.setKeysPrev_dt (s : State) (ks : Keypad) : (s.setKeysPrev ks).dt = s.dt := rfl
@[simp] theorem State.setKeysPrev_st (s : State) (ks : Keypad) : (s.setKeysPrev ks).st = s.st := rfl
@[simp] theorem State.setKeysPrev_fb (s : State) (ks : Keypad) : (s.setKeysPrev ks).fb = s.fb := rfl
@[simp] theorem State.setKeysPrev_run (s : State) (ks : Keypad) : (s.setKeysPrev ks).run = s.run := rfl
@[simp] theorem State.setKeysPrev_keysPrev (s : State) (ks : Keypad) : (s.setKeysPrev ks).keysPrev = ks := rfl
@[simp] theorem State.setKeysPrev_cfg (s : State) (ks : Keypad) : (s.setKeysPrev ks).cfg = s.cfg := rfl
@[simp] theorem State.setKeysPrev_script (s : State) (ks : Keypad) : (s.setKeysPrev ks).script = s.script := rfl
@[simp] theorem State.setKeysPrev_draws (s : State) (ks : Keypad) : (s.setKeysPrev ks).draws = s.draws := rfl

@[simp] theorem State.nextInputs_mem (s : State) : s.nextInputs.mem = s.mem := rfl
@[simp] theorem State.nextInputs_v (s : State) : s.nextInputs.v = s.v := rfl
@[simp] theorem State.nextInputs_i (s : State) : s.nextInputs.i = s.i := rfl
@[simp] theorem State.nextInputs_pc (s : State) : s.nextInputs.pc = s.pc := rfl
@[simp] theorem State.nextInputs_stack (s : State) : s.nextInputs.stack = s.stack := rfl
@[simp] theorem State.nextInputs_dt (s : State) : s.nextInputs.dt = s.dt := rfl
@[simp] theorem State.nextInputs_st (s : State) : s.nextInputs.st = s.st := rfl
@[simp] theorem State.nextInputs_fb (s : State) : s.nextInputs.fb = s.fb := rfl
@[simp] theorem State.nextInputs_run (s : State) : s.nextInputs.run = s.run := rfl
@[simp] theorem State.nextInputs_keysPrev (s : State) : s.nextInputs.keysPrev = s.keysPrev := rfl
@[simp] theorem State.nextInputs_cfg (s : State) : s.nextInputs.cfg = s.cfg := rfl
@[simp] theorem State.nextInputs_script (s : State) : s.nextInputs.script = s.script.tail := rfl
@[simp] theorem State.nextInputs_draws (s : State) : s.nextInputs.draws = s.draws + 1 := rfl

/-! What is read through an accessor, after an update of another component. -/

@[simp] theorem State.setMem_env (s : State) (m : Memory) : (s.setMem m).env = s.env := rfl
@[simp] theorem State.setMem_readV (s : State) (m : Memory) (x : Nibble) : (s.setMem m).readV x = s.readV x := rfl
@[simp] theorem State.setRegs_env (s : State) (w : Vector Byte 16) : (s.setRegs w).env = s.env := rfl
@[simp] theorem State.setRegs_byteAt (s : State) (w : Vector Byte 16) (k : Nat) : (s.setRegs w).byteAt k = s.byteAt k := rfl
@[simp] theorem State.setI_env (s : State) (a : Addr) : (s.setI a).env = s.env := rfl
@[simp] theorem State.setI_byteAt (s : State) (a : Addr) (k : Nat) : (s.setI a).byteAt k = s.byteAt k := rfl
@[simp] theorem State.setI_readV (s : State) (a : Addr) (x : Nibble) : (s.setI a).readV x = s.readV x := rfl
@[simp] theorem State.setPc_env (s : State) (a : Word) : (s.setPc a).env = s.env := rfl
@[simp] theorem State.setPc_byteAt (s : State) (a : Word) (k : Nat) : (s.setPc a).byteAt k = s.byteAt k := rfl
@[simp] theorem State.setPc_readV (s : State) (a : Word) (x : Nibble) : (s.setPc a).readV x = s.readV x := rfl
@[simp] theorem State.setStack_env (s : State) (l : List Word) : (s.setStack l).env = s.env := rfl
@[simp] theorem State.setStack_byteAt (s : State) (l : List Word) (k : Nat) : (s.setStack l).byteAt k = s.byteAt k := rfl
@[simp] theorem State.setStack_readV (s : State) (l : List Word) (x : Nibble) : (s.setStack l).readV x = s.readV x := rfl
@[simp] theorem State.setDt_env (s : State) (b : Byte) : (s.setDt b).env = s.env := rfl
@[simp] theorem State.setDt_byteAt (s : State) (b : Byte) (k : Nat) : (s.setDt b).byteAt k = s.byteAt k := rfl
@[simp] theorem State.setDt_readV (s : State) (b : Byte) (x : Nibble) : (s.setDt b).readV x = s.readV x := rfl
@[simp] theorem State.setSt_env (s : State) (b : Byte) : (s.setSt b).env = s.env := rfl
@[simp] theorem State.setSt_byteAt (s : State) (b : Byte) (k : Nat) : (s.setSt b).byteAt k = s.byteAt k := rfl
@[simp] theorem State.setSt_readV (s : State) (b : Byte) (x : Nibble) : (s.setSt b).readV x = s.readV x := rfl
@[simp] theorem State.setFb_env (s : State) (f : Frame) : (s.setFb f).env = s.env := rfl
@[simp] theorem State.setFb_byteAt (s : State) (f : Frame) (k : Nat) : (s.setFb f).byteAt k = s.byteAt k := rfl
@[simp] theorem State.setFb_readV (s : State) (f : Frame) (x : Nibble) : (s.setFb f).readV x = s.readV x := rfl
@[simp] theorem State.setRun_env (s : State) (r : Run) : (s.setRun r).env = s.env := rfl
@[simp] theorem State.setRun_byteAt (s : State) (r : Run) (k : Nat) : (s.setRun r).byteAt k = s.byteAt k := rfl
@[simp] theorem State.setRun_readV (s : State) (r : Run) (x : Nibble) : (s.setRun r).readV x = s.readV x := rfl
@[simp] theorem State.setKeysPrev_env (s : State) (ks : Keypad) : (s.setKeysPrev ks).env = s.env := rfl
@[simp] theorem State.setKeysPrev_byteAt (s : State) (ks : Keypad) (k : Nat) : (s.setKeysPrev ks).byteAt k = s.byteAt k := rfl
@[simp] theorem State.setKeysPrev_readV (s : State) (ks : Keypad) (x : Nibble) : (s.setKeysPrev ks).readV x = s.readV x := rfl
@[simp] theorem State.nextInputs_byteAt (s : State) (k : Nat) : s.nextInputs.byteAt k = s.byteAt k := rfl
@[simp] theorem State.nextInputs_readV (s : State) (x : Nibble) : s.nextInputs.readV x = s.readV x := rfl
@[simp] theorem State.setMem_byteAt (s : State) (m : Memory) (k : Nat) : (s.setMem m).byteAt k = m.byte k := rfl

/-! A write of one register touches only the register file. -/

@[simp] theorem State.writeV_mem (s : State) (x : Nibble) (b : Byte) : (s.writeV x b).mem = s.mem := rfl
@[simp] theorem State.writeV_i (s : State) (x : Nibble) (b : Byte) : (s.writeV x b).i = s.i := rfl
@[simp] theorem State.writeV_pc (s : State) (x : Nibble) (b : Byte) : (s.writeV x b).pc = s.pc := rfl
@[simp] theorem State.writeV_stack (s : State) (x : Nibble) (b : Byte) : (s.writeV x b).stack = s.stack := rfl
@[simp] theorem State.writeV_dt (s : State) (x : Nibble) (b : Byte) : (s.writeV x b).dt = s.dt := rfl
@[simp] theorem State.writeV_st (s : State) (x : Nibble) (b : Byte) : (s.writeV x b).st = s.st := rfl
@[simp] theorem State.writeV_fb (s : State) (x : Nibble) (b : Byte) : (s.writeV x b).fb = s.fb := rfl
@[simp] theorem State.writeV_run (s : State) (x : Nibble) (b : Byte) : (s.writeV x b).run = s.run := rfl
@[simp] theorem State.writeV_keysPrev (s : State) (x : Nibble) (b : Byte) : (s.writeV x b).keysPrev = s.keysPrev := rfl
@[simp] theorem State.writeV_cfg (s : State) (x : Nibble) (b : Byte) : (s.writeV x b).cfg = s.cfg := rfl
@[simp] theorem State.writeV_script (s : State) (x : Nibble) (b : Byte) : (s.writeV x b).script = s.script := rfl
@[simp] theorem State.writeV_draws (s : State) (x : Nibble) (b : Byte) : (s.writeV x b).draws = s.draws := rfl
@[simp] theorem State.writeV_env (s : State) (x : Nibble) (b : Byte) : (s.writeV x b).env = s.env := rfl
@[simp] theorem State.writeV_byteAt (s : State) (x : Nibble) (b : Byte) (k : Nat) :
    (s.writeV x b).byteAt k = s.byteAt k := rfl

end Sys2Proof.Machine
end

