-- ==== Sys2Proof/Laws/Registers.lean ====
section
/-! SUPPORT. The register file: what a register reads after a write, and after the ordered write of result and flag. -/

namespace Sys2Proof.Machine

/-- A register reads what was last written to it; every other one is as before. -/
theorem State.readV_writeV (s : State) (x y : Nibble) (b : Byte) :
    (s.writeV x b).readV y = if y = x then b else s.readV y := by
  simp only [State.readV, State.writeV, State.setRegs_v, Vector.getElem_set, BitVec.toNat_inj, eq_comm (a := x)]

@[simp] theorem State.readV_writeV_same (s : State) (x : Nibble) (b : Byte) : (s.writeV x b).readV x = b := by
  simp [State.readV_writeV]

theorem State.readV_writeV_other (s : State) {x y : Nibble} (b : Byte) (h : y ≠ x) :
    (s.writeV x b).readV y = s.readV y := by simp [State.readV_writeV, h]

/-- Register files that read alike are equal. -/
theorem regs_ext {s t : State} (h : ∀ r, t.readV r = s.readV r) : t.v = s.v := by
  apply Vector.ext
  intro k hk
  simpa [State.readV, Nat.mod_eq_of_lt hk] using h (BitVec.ofNat 4 k)

/-- What the registers hold after `WriteResultAndFlag` (R117): VF the flag, or the result where the order says so; Vx
the result; the others as before. -/
theorem State.readV_writeResultAndFlag (s : State) (x : Nibble) (res : Byte) (f : Bool) (r : Nibble) :
    (s.writeResultAndFlag x res f).readV r =
      if r = x ∧ (x = vf → s.cfg.vfOrder = .resultLast) then res
      else if r = vf then flagByte f else s.readV r := by
  unfold State.writeResultAndFlag
  cases h : s.cfg.vfOrder <;> simp only [State.readV_writeV] <;> by_cases h1 : r = x <;> by_cases h2 : r = vf <;>
    simp_all

/-- `WriteResultAndFlag` writes registers only. -/
theorem State.writeResultAndFlag_eq (s : State) (x : Nibble) (res : Byte) (f : Bool) :
    ∃ w, s.writeResultAndFlag x res f = s.setRegs w := by
  unfold State.writeResultAndFlag
  cases s.cfg.vfOrder
  · exact ⟨_, rfl⟩
  · exact ⟨_, rfl⟩

end Sys2Proof.Machine
end

