-- ==== Sys2Proof/Laws/Ops.lean ====
section
/-! SUPPORT. What each shared operation can do, said once: the stack, the skip, the faults, the operand forms, the flags. -/

namespace Sys2Proof.Machine

/-- A push either finds the stack at capacity or appends (R25). -/
theorem State.push_cases (s : State) (a : Word) :
    (s.stack.length = s.cfg.stackDepth ∧ s.push a = none) ∨
      (s.stack.length ≠ s.cfg.stackDepth ∧ s.push a = some (s.setStack (s.stack ++ [a]))) := by
  unfold State.push
  by_cases h : s.stack.length = s.cfg.stackDepth <;> simp [h]

/-- A pop either finds the stack empty or takes the last entry off (R25). -/
theorem State.pop_cases (s : State) :
    (s.stack = [] ∧ s.pop = none) ∨ ∃ l a, s.stack = l ++ [a] ∧ s.pop = some (a, s.setStack l) := by
  rcases List.eq_nil_or_concat s.stack with h | ⟨l, a, h⟩
  · exact .inl ⟨h, by simp [State.pop, h]⟩
  · exact .inr ⟨l, a, by simpa using h, by simp [State.pop, h]⟩

@[simp] theorem State.skipIf_pc (s : State) (c : Bool) : (s.skipIf c).pc = if c then s.pc + 2 else s.pc := rfl

/-- A skip is an update of the pc (R138). -/
theorem State.skipIf_eq (s : State) (c : Bool) : s.skipIf c = s.setPc (if c then s.pc + 2 else s.pc) := rfl

/-- Raising a fault is an update of the run state (R247). -/
theorem State.raise_eq (s : State) (k : ErrorKind) (i : Instr) (addr : Option Word) :
    s.raise k i addr = s.setRun (.halted ⟨k, s.pc - 2, some (encode i), addr⟩) := rfl

theorem State.raiseBounds_eq (s : State) (i : Instr) :
    s.raiseBounds i = s.setRun (.halted ⟨.memoryOutOfBounds, s.pc - 2, some (encode i), some 0x1000⟩) := rfl

/-- The check of an access: `n` bytes from `a` on lie inside memory. -/
theorem inMemory_iff (a n : Nat) : inMemory a n = true ↔ n = 0 ∨ a + n ≤ 4096 := by
  simp only [inMemory, Bool.or_eq_true, decide_eq_true_eq]

/-- Vk is the k-th byte that FX55 stores. -/
theorem State.regsUpTo_getElem? (s : State) (x : Nibble) (k : Nat) :
    (s.regsUpTo x)[k]? = if k ≤ x.toNat then some (s.readV (BitVec.ofNat 4 k)) else none := by
  have hx := x.isLt
  simp only [State.regsUpTo, List.getElem?_take, State.readV, BitVec.toNat_ofNat]
  by_cases hk : k ≤ x.toNat
  · have h16 : k < 16 := by omega
    rw [if_pos (by omega), if_pos hk]
    simp [h16, Nat.mod_eq_of_lt h16]
  · rw [if_neg (by omega), if_neg hk]

@[simp] theorem State.regsUpTo_length (s : State) (x : Nibble) : (s.regsUpTo x).length = x.toNat + 1 := by
  have := x.isLt
  simp [State.regsUpTo]
  omega

/-- A byte after bytes are stored from I on, all of them inside memory (R183, R184). -/
theorem State.byteAt_store (s : State) {ws : List Byte} (h : s.i.toNat + ws.length ≤ 4096) (a : Nat) :
    (s.setMem (s.mem.writeBytes s.base ws)).byteAt a =
      if s.i.toNat ≤ a then (ws[a - s.i.toNat]?).getD (s.byteAt a) else s.byteAt a :=
  Memory.byte_writeBytes s.mem h a

/-- What a register holds in the loaded register file (R185). -/
theorem State.readV_loadedRegs (s : State) (x r : Nibble) :
    (s.setRegs (s.loadedRegs x)).readV r = if r.toNat ≤ x.toNat then s.byteAt (s.base + r.toNat) else s.readV r := by
  simp [State.readV, State.loadedRegs]

theorem State.spriteRows_getElem? (s : State) (n : Nibble) (k : Nat) :
    (s.spriteRows n)[k]? = if k < n.toNat then some (s.byteAt (s.base + k)) else none := by
  simp only [State.spriteRows, List.getElem?_map]
  by_cases h : k < n.toNat <;> simp [h]

theorem sumByte_eq (a b : Byte) : sumByte a b = a + b := by
  apply BitVec.eq_of_toNat_eq; simp [sumByte]

theorem diffByte_eq (a b : Byte) : diffByte a b = a - b := by
  have := a.isLt; have := b.isLt
  apply BitVec.eq_of_toNat_eq; simp only [diffByte, BitVec.toNat_ofNat, BitVec.toNat_sub]; omega

theorem carryFlag_iff (a b : Byte) : carryFlag a b = true ↔ 255 < a.toNat + b.toNat := by simp [carryFlag]

theorem noBorrowFlag_iff (a b : Byte) : noBorrowFlag a b = true ↔ b.toNat ≤ a.toNat := by simp [noBorrowFlag]

/-- Every nibble is listed, in rising order. -/
theorem mem_allNibbles (k : Nibble) : k ∈ allNibbles := by
  simp only [allNibbles, List.mem_map, List.mem_range]
  exact ⟨k.toNat, k.isLt, by simp⟩

/-- The newly pressed keys are those down now and up before (R225). -/
theorem State.mem_newKeys (s : State) (k : Nibble) :
    k ∈ s.newKeys ↔ keyDown s.env.keys k = true ∧ keyDown s.keysPrev k = false := by
  simp [State.newKeys, mem_allNibbles]

end Sys2Proof.Machine
end

