-- ==== Sys2Proof/Laws/Cycle.lean ====
section
/-! SUPPORT. What the parts of a step around an instruction can do, said once each: the end of a CPU step, the wait, the
host's reset and the memory it leaves. -/

namespace Sys2Proof.Machine

/-- The end of a CPU step: the snapshot is kept unless the step halted (R110). -/
theorem endCpuStep_eq (s : State) :
    endCpuStep s = ((if s.run.isHalted then s else s.setKeysPrev s.env.keys)).nextInputs := by
  unfold endCpuStep
  cases h : s.run <;> simp [Run.isHalted]

/-- The wait either goes on, nothing changed, or ends with a newly pressed key in Vx (R225). -/
theorem waitResolve_cases (x : Nibble) (s : State) :
    (s.newKeys = [] ∧ waitResolve x s = s) ∨
      ∃ k ∈ s.newKeys, waitResolve x s = (s.writeV x (k.setWidth 8)).setRun .running := by
  unfold waitResolve
  cases h : s.newKeys with
  | nil => exact .inl ⟨rfl, rfl⟩
  | cons k ks =>
    refine .inr ⟨s.chosenKey k, ?_, rfl⟩
    unfold State.chosenKey
    split
    · next hm => rwa [h] at hm
    · exact List.mem_cons_self ..

/-- The host's reset either starts the machine anew or refuses the image (R270, D22). -/
theorem hostReset_cases (l : Launch) (s : State) :
    (l.program.length ≤ 3584 ∧ hostReset l s = .next (launched l s)) ∨
      (3584 < l.program.length ∧ hostReset l s = .refused .loadRefused) := by
  unfold hostReset
  by_cases h : l.program.length ≤ 3584
  · exact .inl ⟨h, by rw [if_pos]; simpa [programFits, Config.maxProgram] using h⟩
  · exact .inr ⟨by omega, by rw [if_neg]; simpa [programFits, Config.maxProgram] using h⟩

/-- A reset leaves memory in its canonical form. -/
theorem launchMemory_wf (l : Launch) : Memory.wf (launchMemory l) :=
  Memory.writeBytes_wf (Memory.writeBytes_wf (Memory.writeCells_wf State.reset_mem_wf _) _ _) _ _

/-- Outside the font and the program, the launch content alone decides a byte (R270). -/
theorem byte_launchMemory_under (l : Launch) {a : Nat} (h1 : 80 ≤ a) (h2 : a < 0x200 ∨ 0x200 + l.program.length ≤ a) :
    (launchMemory l).byte a = (Memory.writeCells [] l.memInit).byte a := by
  unfold launchMemory
  rw [Memory.byte_writeBytes_outside _ _ _ (show a < Config.programBase ∨ _ from h2),
    Memory.byte_writeBytes_outside _ _ _ (.inr (by simpa [fontBase] using h1))]

end Sys2Proof.Machine
end

