-- ==== Sys2Proof/Laws/Frame.lean ====
section
/-! SUPPORT. The framebuffer: what a pixel reads after a pixel is set or toggled, and after a list of pixels is. -/

namespace Sys2Proof.Machine

@[simp] theorem Frame.pixel_blank (c r : Nat) : Frame.blank.pixel c r = false := by
  simp [Frame.pixel, Frame.blank]

/-- A pixel reads what was last set on it, coordinates taken modulo 64 and 32 (R200). -/
theorem Frame.pixel_setPixel (f : Frame) (c r : Nat) (b : Bool) (c' r' : Nat) :
    (f.setPixel c r b).pixel c' r' = if c' % 64 = c % 64 ∧ r' % 32 = r % 32 then b else f.pixel c' r' := by
  simp only [Frame.pixel, Frame.setPixel, Vector.getElem_set]
  by_cases hr : r % 32 = r' % 32
  · simp only [hr, if_true, Vector.getElem_set]
    by_cases hc : c % 64 = c' % 64 <;> simp [hc, eq_comm]
  · simp [hr, eq_comm]

/-- Framebuffers whose pixels agree are equal. -/
theorem Frame.ext_pixel {f g : Frame} (h : ∀ c r, f.pixel c r = g.pixel c r) : f = g := by
  apply Vector.ext
  intro r hr
  apply Vector.ext
  intro c hc
  simpa [Frame.pixel, Nat.mod_eq_of_lt hr, Nat.mod_eq_of_lt hc] using h c r

/-- One toggle: the pixel flips, the others stay, and a pixel that was set is recorded as a collision (R203). -/
theorem togglePixel_pixel (acc : Frame × Bool) (p : Nat × Nat) (c r : Nat) :
    (togglePixel acc p).1.pixel c r =
      if c % 64 = p.1 % 64 ∧ r % 32 = p.2 % 32 then !acc.1.pixel c r else acc.1.pixel c r := by
  simp only [togglePixel, Frame.pixel_setPixel]
  split
  · next h => simp [Frame.pixel, h.1, h.2]
  · rfl

@[simp] theorem togglePixel_collision (acc : Frame × Bool) (p : Nat × Nat) :
    (togglePixel acc p).2 = (acc.2 || acc.1.pixel p.1 p.2) := rfl

end Sys2Proof.Machine
end

