-- ==== Sys2Proof/Laws/Display.lean ====
section
/-! SUPPORT. The sprite: which pixels it toggles, that it toggles none twice, and what toggling a list of distinct pixels
does to the framebuffer and the collision flag (R203). -/

namespace Sys2Proof.Machine

/-- A pixel of one sprite row: a set bit of the row lies on it, bit 7 leftmost (R201). -/
theorem mem_rowPixels (cx cy r : Nat) (row : Byte) (p : Nat × Nat) :
    p ∈ rowPixels cx cy r row ↔
      ∃ j < 8, row.getLsbD (7 - j) = true ∧ p = ((cx + j) % 64, (cy + r) % 32) := by
  simp only [rowPixels, List.mem_map, List.mem_filter, List.mem_range]
  constructor
  · rintro ⟨j, ⟨hj, hb⟩, rfl⟩; exact ⟨j, hj, hb, rfl⟩
  · rintro ⟨j, hj, hb, rfl⟩; exact ⟨j, ⟨hj, hb⟩, rfl⟩

/-- A pixel of a sprite: a set bit of one of its rows lies on it (R203). -/
theorem mem_spritePixels (cx cy r : Nat) (rows : List Byte) (p : Nat × Nat) :
    p ∈ spritePixels cx cy r rows ↔
      ∃ k row, rows[k]? = some row ∧ ∃ j < 8, row.getLsbD (7 - j) = true ∧
        p = ((cx + j) % 64, (cy + (r + k)) % 32) := by
  induction rows generalizing r with
  | nil => simp [spritePixels]
  | cons row rows ih =>
    rw [spritePixels, List.mem_append, mem_rowPixels, ih]
    constructor
    · rintro (⟨j, hj, hb, rfl⟩ | ⟨k, w, hk, j, hj, hb, rfl⟩)
      · exact ⟨0, row, rfl, j, hj, hb, rfl⟩
      · exact ⟨k + 1, w, hk, j, hj, hb, by rw [show r + (k + 1) = r + 1 + k by omega]⟩
    · rintro ⟨k, w, hk, j, hj, hb, rfl⟩
      cases k with
      | zero => cases hk; exact .inl ⟨j, hj, hb, rfl⟩
      | succ k => exact .inr ⟨k, w, hk, j, hj, hb, by rw [show r + 1 + k = r + (k + 1) by omega]⟩

/-- The pixels of a sprite lie in the grid. -/
theorem spritePixels_lt {cx cy r : Nat} {rows : List Byte} {p : Nat × Nat} (h : p ∈ spritePixels cx cy r rows) :
    p.1 < 64 ∧ p.2 < 32 := by
  obtain ⟨-, -, -, -, -, -, rfl⟩ := (mem_spritePixels ..).mp h
  exact ⟨Nat.mod_lt _ (by decide), Nat.mod_lt _ (by decide)⟩

/-- No pixel is toggled twice by one draw: 8 columns and at most 31 rows never meet around the edges (R203). -/
theorem spritePixels_nodup (cx cy r : Nat) (rows : List Byte) (h : rows.length ≤ 31) :
    (spritePixels cx cy r rows).Nodup := by
  induction rows generalizing r with
  | nil => exact List.nodup_nil
  | cons row rows ih =>
    simp only [List.length_cons] at h
    refine List.nodup_append.mpr ⟨?_, ih (r + 1) (by omega), ?_⟩
    · refine List.Nodup.map_on ?_ (List.nodup_range.filter _)
      intro a ha b hb hab
      simp only [List.mem_filter, List.mem_range] at ha hb
      simp only [Prod.mk.injEq] at hab
      omega
    · rintro p hp q hq rfl
      obtain ⟨j, hj, -, rfl⟩ := (mem_rowPixels ..).mp hp
      obtain ⟨k, w, hk, i, hi, -, he⟩ := (mem_spritePixels ..).mp hq
      have hkl := (List.getElem?_eq_some_iff.mp hk).1
      simp only [Prod.mk.injEq] at he
      omega

/-- Toggling a list of distinct pixels of the grid flips exactly the pixels of the list, and the flag records whether
one of them was set. -/
theorem foldl_togglePixel (l : List (Nat × Nat)) (hn : l.Nodup) (hl : ∀ p ∈ l, p.1 < 64 ∧ p.2 < 32)
    (acc : Frame × Bool) :
    (∀ c < 64, ∀ r < 32, (l.foldl togglePixel acc).1.pixel c r =
      if (c, r) ∈ l then !acc.1.pixel c r else acc.1.pixel c r) ∧
    ((l.foldl togglePixel acc).2 = true ↔ acc.2 = true ∨ ∃ p ∈ l, acc.1.pixel p.1 p.2 = true) := by
  induction l generalizing acc with
  | nil => simp
  | cons p l ih =>
    obtain ⟨hp, hn⟩ := List.nodup_cons.mp hn
    have hp' := hl p (List.mem_cons_self ..)
    have hl' := fun q hq => hl q (List.mem_cons_of_mem p hq)
    have hother : ∀ c < 64, ∀ r < 32, (c, r) ≠ p → (togglePixel acc p).1.pixel c r = acc.1.pixel c r := by
      intro c hc r hr hne
      rw [togglePixel_pixel, if_neg]
      rintro ⟨h1, h2⟩
      refine hne (Prod.ext ?_ ?_)
      · simpa [Nat.mod_eq_of_lt hc, Nat.mod_eq_of_lt hp'.1] using h1
      · simpa [Nat.mod_eq_of_lt hr, Nat.mod_eq_of_lt hp'.2] using h2
    obtain ⟨ih1, ih2⟩ := ih hn hl' (togglePixel acc p)
    refine ⟨fun c hc r hr => ?_, ?_⟩
    · rw [List.foldl_cons, ih1 c hc r hr]
      by_cases he : (c, r) = p
      · subst he
        rw [if_neg hp, if_pos (List.mem_cons_self ..), togglePixel_pixel, if_pos ⟨rfl, rfl⟩]
      · rw [hother c hc r hr he]
        simp [he]
    · rw [List.foldl_cons, ih2]
      have : (∃ q ∈ l, (togglePixel acc p).1.pixel q.1 q.2 = true) ↔ ∃ q ∈ l, acc.1.pixel q.1 q.2 = true := by
        refine exists_congr fun q => and_congr_right fun hq => ?_
        rw [hother q.1 (hl' q hq).1 q.2 (hl' q hq).2]
        rintro rfl
        exact hp hq
      rw [this, togglePixel_collision]
      simp only [Bool.or_eq_true, List.mem_cons, exists_eq_or_imp, or_assoc]

end Sys2Proof.Machine
end

