-- ==== Sys2Proof/Laws/Encoding.lean ====
section
/-! SUPPORT. The fields of a word as numbers, and the words as numbers: from these, every field of a word built from its
fields is that field, and every word is built from its fields. -/

namespace Sys2Proof

section
variable (op : Word)

theorem opFamily_toNat : (opFamily op).toNat = op.toNat / 4096 := by
  have := op.isLt; simp [opFamily, Nat.shiftRight_eq_div_pow]; omega
theorem opX_toNat : (opX op).toNat = op.toNat / 256 % 16 := by simp [opX, Nat.shiftRight_eq_div_pow]
theorem opY_toNat : (opY op).toNat = op.toNat / 16 % 16 := by simp [opY, Nat.shiftRight_eq_div_pow]
theorem opN_toNat : (opN op).toNat = op.toNat % 16 := by simp [opN]
theorem opNN_toNat : (opNN op).toNat = op.toNat % 256 := by simp [opNN]
theorem opNNN_toNat : (opNNN op).toNat = op.toNat % 4096 := by simp [opNNN]
theorem highByte_toNat : (highByte op).toNat = op.toNat / 256 := by
  have := op.isLt; simp [highByte, Nat.shiftRight_eq_div_pow]; omega
theorem lowByte_toNat : (lowByte op).toNat = op.toNat % 256 := by simp [lowByte]

end

/-- The number of two fields side by side. -/
theorem append_toNat {v w : Nat} (a : BitVec v) (b : BitVec w) : (a ++ b).toNat = a.toNat * 2 ^ w + b.toNat := by
  rw [BitVec.toNat_append, Nat.shiftLeft_eq, Nat.mul_comm, Nat.two_pow_add_eq_or_of_lt b.isLt]

section
variable (n3 x y n : Nibble) (nn : Byte) (nnn : Addr)

theorem wordXYN_toNat : (wordXYN n3 x y n).toNat = n3.toNat * 4096 + x.toNat * 256 + y.toNat * 16 + n.toNat := by
  simp only [wordXYN, append_toNat]; omega

theorem wordXNN_toNat : (wordXNN n3 x nn).toNat = n3.toNat * 4096 + x.toNat * 256 + nn.toNat := by
  simp only [wordXNN, append_toNat]; omega

theorem wordNNN_toNat : (wordNNN n3 nnn).toNat = n3.toNat * 4096 + nnn.toNat := by
  simp only [wordNNN, append_toNat]; omega

theorem wordOfBytes_toNat (hi lo : Byte) : (wordOfBytes hi lo).toNat = hi.toNat * 256 + lo.toNat := by
  simp only [wordOfBytes, append_toNat]; omega

@[simp] theorem opFamily_wordXYN : opFamily (wordXYN n3 x y n) = n3 := by
  have := n3.isLt; have := x.isLt; have := y.isLt; have := n.isLt
  apply BitVec.eq_of_toNat_eq; rw [opFamily_toNat, wordXYN_toNat]; omega
@[simp] theorem opX_wordXYN : opX (wordXYN n3 x y n) = x := by
  have := n3.isLt; have := x.isLt; have := y.isLt; have := n.isLt
  apply BitVec.eq_of_toNat_eq; rw [opX_toNat, wordXYN_toNat]; omega
@[simp] theorem opY_wordXYN : opY (wordXYN n3 x y n) = y := by
  have := n3.isLt; have := x.isLt; have := y.isLt; have := n.isLt
  apply BitVec.eq_of_toNat_eq; rw [opY_toNat, wordXYN_toNat]; omega
@[simp] theorem opN_wordXYN : opN (wordXYN n3 x y n) = n := by
  have := n3.isLt; have := x.isLt; have := y.isLt; have := n.isLt
  apply BitVec.eq_of_toNat_eq; rw [opN_toNat, wordXYN_toNat]; omega
@[simp] theorem opFamily_wordXNN : opFamily (wordXNN n3 x nn) = n3 := by
  have := n3.isLt; have := x.isLt; have := nn.isLt
  apply BitVec.eq_of_toNat_eq; rw [opFamily_toNat, wordXNN_toNat]; omega
@[simp] theorem opX_wordXNN : opX (wordXNN n3 x nn) = x := by
  have := n3.isLt; have := x.isLt; have := nn.isLt
  apply BitVec.eq_of_toNat_eq; rw [opX_toNat, wordXNN_toNat]; omega
@[simp] theorem opNN_wordXNN : opNN (wordXNN n3 x nn) = nn := by
  have := n3.isLt; have := x.isLt; have := nn.isLt
  apply BitVec.eq_of_toNat_eq; rw [opNN_toNat, wordXNN_toNat]; omega
@[simp] theorem opFamily_wordNNN : opFamily (wordNNN n3 nnn) = n3 := by
  have := n3.isLt; have := nnn.isLt
  apply BitVec.eq_of_toNat_eq; rw [opFamily_toNat, wordNNN_toNat]; omega
@[simp] theorem opNNN_wordNNN : opNNN (wordNNN n3 nnn) = nnn := by
  have := n3.isLt; have := nnn.isLt
  apply BitVec.eq_of_toNat_eq; rw [opNNN_toNat, wordNNN_toNat]; omega

end

/-- A word is its four nibbles. -/
theorem wordXYN_fields (op : Word) : wordXYN (opFamily op) (opX op) (opY op) (opN op) = op := by
  apply BitVec.eq_of_toNat_eq; rw [wordXYN_toNat, opFamily_toNat, opX_toNat, opY_toNat, opN_toNat]; omega

/-- A word is its top nibble, x and NN. -/
theorem wordXNN_fields (op : Word) : wordXNN (opFamily op) (opX op) (opNN op) = op := by
  apply BitVec.eq_of_toNat_eq; rw [wordXNN_toNat, opFamily_toNat, opX_toNat, opNN_toNat]; omega

/-- A word is its top nibble and NNN. -/
theorem wordNNN_fields (op : Word) : wordNNN (opFamily op) (opNNN op) = op := by
  apply BitVec.eq_of_toNat_eq; rw [wordNNN_toNat, opFamily_toNat, opNNN_toNat]; omega

/-- A word laid out in two bytes, high byte first, is read back (R55). -/
@[simp] theorem wordOfBytes_bytes (op : Word) : wordOfBytes (highByte op) (lowByte op) = op := by
  apply BitVec.eq_of_toNat_eq; rw [wordOfBytes_toNat, highByte_toNat, lowByte_toNat]; omega

/-- A top nibble that is none of 0 to E is F (R83). -/
theorem nibble_eq_F (f : Nibble) (h : f ≠ 0x0#4) (h1 : f ≠ 0x1#4) (h2 : f ≠ 0x2#4) (h3 : f ≠ 0x3#4) (h4 : f ≠ 0x4#4)
    (h5 : f ≠ 0x5#4) (h6 : f ≠ 0x6#4) (h7 : f ≠ 0x7#4) (h8 : f ≠ 0x8#4) (h9 : f ≠ 0x9#4) (hA : f ≠ 0xA#4)
    (hB : f ≠ 0xB#4) (hC : f ≠ 0xC#4) (hD : f ≠ 0xD#4) (hE : f ≠ 0xE#4) : f = 0xF#4 := by bv_omega

/-- The fields of every instruction lie in their ranges: the types see to it (R81). -/
theorem Instr.wellFormed_all (i : Instr) : i.wellFormed = true := by
  cases i <;> simp only [Instr.wellFormed, Bool.and_eq_true, decide_eq_true_eq] <;> omega

end Sys2Proof
end

