-- ==== Sys2Proof/Laws/Exec.lean ====
section
/-! SUPPORT. What any instruction can do: it answers a next state, and it leaves alone what no instruction writes. -/

namespace Sys2Proof.Machine

/-- The parts of the state that no instruction writes: the previous snapshot, the parameters, the environment's inputs. -/
def SameContext (s t : State) : Prop :=
  t.keysPrev = s.keysPrev ∧ t.cfg = s.cfg ∧ t.script = s.script ∧ t.draws = s.draws

theorem SameContext.env {s t : State} (h : SameContext s t) : t.env = s.env := by
  unfold State.env; rw [h.2.2.1, h.2.2.2]

theorem State.writeResultAndFlag_context (s : State) (x : Nibble) (res : Byte) (f : Bool) :
    SameContext s (s.writeResultAndFlag x res f) := by
  obtain ⟨w, h⟩ := s.writeResultAndFlag_eq x res f
  exact h ▸ ⟨rfl, rfl, rfl, rfl⟩

/-- An answer of a next state that keeps the context. -/
theorem next_of {s u : State} {o : Host.Outcome State Fault Refusal} (h : o = .next u) (hc : SameContext s u) :
    ∃ t, o = .next t ∧ SameContext s t := ⟨u, h, hc⟩

/-- Every instruction answers a next state, in every state (R86, R114), and keeps the context. -/
theorem exec_next (i : Instr) (s : State) : ∃ t, exec i s = .next t ∧ SameContext s t := by
  cases i
  case ret =>
    simp only [exec, execRet]
    rcases s.pop_cases with ⟨-, h⟩ | ⟨l, a, -, h⟩ <;> rw [h] <;> exact next_of rfl ⟨rfl, rfl, rfl, rfl⟩
  case call nnn =>
    simp only [exec, execCall]
    rcases s.push_cases s.pc with ⟨-, h⟩ | ⟨-, h⟩ <;> rw [h] <;> exact next_of rfl ⟨rfl, rfl, rfl, rfl⟩
  case drw x y n => simp only [exec, execDrw]; split <;> exact next_of rfl (by simp [SameContext, State.raiseBounds_eq])
  case ldB x => simp only [exec, execLdB]; split <;> exact next_of rfl (by simp [SameContext, State.raiseBounds_eq])
  case ldMemVx x =>
    simp only [exec, execLdMemVx]; split <;> exact next_of rfl (by simp [SameContext, State.raiseBounds_eq])
  case ldVxMem x =>
    simp only [exec, execLdVxMem]; split <;> exact next_of rfl (by simp [SameContext, State.raiseBounds_eq])
  case addReg x y => exact ⟨_, rfl, s.writeResultAndFlag_context ..⟩
  case sub x y => exact ⟨_, rfl, s.writeResultAndFlag_context ..⟩
  case shr x y => exact ⟨_, rfl, s.writeResultAndFlag_context ..⟩
  case subn x y => exact ⟨_, rfl, s.writeResultAndFlag_context ..⟩
  case shl x y => exact ⟨_, rfl, s.writeResultAndFlag_context ..⟩
  all_goals exact ⟨_, rfl, rfl, rfl, rfl, rfl⟩

end Sys2Proof.Machine
end

