-- ==== Sys2Proof/Laws/PerInstr.lean ====
section
/-! SUPPORT. For every instruction: its word is a word of its own row of the opcode table (R84). -/

namespace Sys2Proof.Laws.TableRow

/-- The instruction's row is one of the 34, and its word AND the row's mask is the row's fixed bits. -/
def Statement (i : Instr) : Prop := i.row ∈ opcodeRows ∧ encode i &&& i.row.mask = i.row.bits

/-- A mask acts on each nibble of a word. -/
theorem wordXYN_and (a b c d a' b' c' d' : Nibble) :
    wordXYN a b c d &&& wordXYN a' b' c' d' = wordXYN (a &&& a') (b &&& b') (c &&& c') (d &&& d') := by
  simp only [wordXYN, ← BitVec.and_append]

/-- A mask of the top nibble and the low byte. -/
theorem wordXNN_and (a x a' x' : Nibble) (b b' : Byte) :
    wordXNN a x b &&& wordXNN a' x' b' = wordXNN (a &&& a') (x &&& x') (b &&& b') := by
  simp only [wordXNN, ← BitVec.and_append]

/-- A mask of the top nibble. -/
theorem wordNNN_and (a a' : Nibble) (b b' : Addr) : wordNNN a b &&& wordNNN a' b' = wordNNN (a &&& a') (b &&& b') := by
  simp only [wordNNN, ← BitVec.and_append]

/-- A mask of ones. -/
theorem and_ones4 (a : Nibble) : a &&& 0xF = a := BitVec.and_allOnes
theorem and_ones8 (b : Byte) : b &&& 0xFF = b := BitVec.and_allOnes

/-- Families of one row, selected by the top nibble alone (R83). -/
theorem mask_wordNNN (a : Nibble) (nnn : Addr) : wordNNN a nnn &&& 0xF000 = wordNNN a 0 := by
  rw [show (0xF000 : Word) = wordNNN 0xF 0 by decide, wordNNN_and, and_ones4]; simp
theorem mask_wordXNN (a x : Nibble) (nn : Byte) : wordXNN a x nn &&& 0xF000 = wordXNN a 0 0 := by
  rw [show (0xF000 : Word) = wordXNN 0xF 0 0 by decide, wordXNN_and, and_ones4]; simp
theorem mask_wordXYN (a x y n : Nibble) : wordXYN a x y n &&& 0xF000 = wordXYN a 0 0 0 := by
  rw [show (0xF000 : Word) = wordXYN 0xF 0 0 0 by decide, wordXYN_and, and_ones4]; simp

/-- Families with a secondary nibble (R83). -/
theorem mask_nibble (a x y n : Nibble) : wordXYN a x y n &&& 0xF00F = wordXYN a 0 0 n := by
  rw [show (0xF00F : Word) = wordXYN 0xF 0 0 0xF by decide, wordXYN_and, and_ones4, and_ones4]; simp

/-- Families with a secondary byte (R83). -/
theorem mask_byte (a x : Nibble) (nn : Byte) : wordXNN a x nn &&& 0xF0FF = wordXNN a 0 nn := by
  rw [show (0xF0FF : Word) = wordXNN 0xF 0 0xFF by decide, wordXNN_and, and_ones4, and_ones8]; simp

/-- Which words meet a row's mask and fixed bits: those with its top nibble; those with its secondary nibble too; those
with its secondary byte too (R83). -/
theorem family_iff (op : Word) (a : Nibble) : op &&& 0xF000 = wordXYN a 0 0 0 ↔ opFamily op = a := by
  have h := mask_wordXYN (opFamily op) (opX op) (opY op) (opN op)
  rw [wordXYN_fields] at h
  rw [h]
  exact ⟨fun e => by simpa using congrArg opFamily e, fun e => by rw [e]⟩
theorem nibble_iff (op : Word) (a b : Nibble) :
    op &&& 0xF00F = wordXYN a 0 0 b ↔ opFamily op = a ∧ opN op = b := by
  have h := mask_nibble (opFamily op) (opX op) (opY op) (opN op)
  rw [wordXYN_fields] at h
  rw [h]
  exact ⟨fun e => ⟨by simpa using congrArg opFamily e, by simpa using congrArg opN e⟩, fun ⟨e, e'⟩ => by rw [e, e']⟩
theorem byte_iff (op : Word) (a : Nibble) (b : Byte) :
    op &&& 0xF0FF = wordXNN a 0 b ↔ opFamily op = a ∧ opNN op = b := by
  have h := mask_byte (opFamily op) (opX op) (opNN op)
  rw [wordXNN_fields] at h
  rw [h]
  exact ⟨fun e => ⟨by simpa using congrArg opFamily e, by simpa using congrArg opNN e⟩, fun ⟨e, e'⟩ => by rw [e, e']⟩

theorem cls : Statement (.cls) := ⟨by decide, by decide⟩
theorem ret : Statement (.ret) := ⟨by decide, by decide⟩
theorem jp (nnn : Addr) : Statement (.jp nnn) := ⟨by simp [opcodeRows, oneOfEach, Instr.row], mask_wordNNN ..⟩
theorem call (nnn : Addr) : Statement (.call nnn) := ⟨by simp [opcodeRows, oneOfEach, Instr.row], mask_wordNNN ..⟩
theorem seImm (x : Nibble) (nn : Byte) : Statement (.seImm x nn) := ⟨by simp [opcodeRows, oneOfEach, Instr.row], mask_wordXNN ..⟩
theorem sneImm (x : Nibble) (nn : Byte) : Statement (.sneImm x nn) := ⟨by simp [opcodeRows, oneOfEach, Instr.row], mask_wordXNN ..⟩
theorem seReg (x y : Nibble) : Statement (.seReg x y) := ⟨by simp [opcodeRows, oneOfEach, Instr.row], mask_nibble ..⟩
theorem ldImm (x : Nibble) (nn : Byte) : Statement (.ldImm x nn) := ⟨by simp [opcodeRows, oneOfEach, Instr.row], mask_wordXNN ..⟩
theorem addImm (x : Nibble) (nn : Byte) : Statement (.addImm x nn) := ⟨by simp [opcodeRows, oneOfEach, Instr.row], mask_wordXNN ..⟩
theorem ldReg (x y : Nibble) : Statement (.ldReg x y) := ⟨by simp [opcodeRows, oneOfEach, Instr.row], mask_nibble ..⟩
theorem orReg (x y : Nibble) : Statement (.orReg x y) := ⟨by simp [opcodeRows, oneOfEach, Instr.row], mask_nibble ..⟩
theorem andReg (x y : Nibble) : Statement (.andReg x y) := ⟨by simp [opcodeRows, oneOfEach, Instr.row], mask_nibble ..⟩
theorem xorReg (x y : Nibble) : Statement (.xorReg x y) := ⟨by simp [opcodeRows, oneOfEach, Instr.row], mask_nibble ..⟩
theorem addReg (x y : Nibble) : Statement (.addReg x y) := ⟨by simp [opcodeRows, oneOfEach, Instr.row], mask_nibble ..⟩
theorem sub (x y : Nibble) : Statement (.sub x y) := ⟨by simp [opcodeRows, oneOfEach, Instr.row], mask_nibble ..⟩
theorem shr (x y : Nibble) : Statement (.shr x y) := ⟨by simp [opcodeRows, oneOfEach, Instr.row], mask_nibble ..⟩
theorem subn (x y : Nibble) : Statement (.subn x y) := ⟨by simp [opcodeRows, oneOfEach, Instr.row], mask_nibble ..⟩
theorem shl (x y : Nibble) : Statement (.shl x y) := ⟨by simp [opcodeRows, oneOfEach, Instr.row], mask_nibble ..⟩
theorem sneReg (x y : Nibble) : Statement (.sneReg x y) := ⟨by simp [opcodeRows, oneOfEach, Instr.row], mask_nibble ..⟩
theorem ldI (nnn : Addr) : Statement (.ldI nnn) := ⟨by simp [opcodeRows, oneOfEach, Instr.row], mask_wordNNN ..⟩
theorem jpV0 (nnn : Addr) : Statement (.jpV0 nnn) := ⟨by simp [opcodeRows, oneOfEach, Instr.row], mask_wordNNN ..⟩
theorem rnd (x : Nibble) (nn : Byte) : Statement (.rnd x nn) := ⟨by simp [opcodeRows, oneOfEach, Instr.row], mask_wordXNN ..⟩
theorem drw (x y n : Nibble) : Statement (.drw x y n) := ⟨by simp [opcodeRows, oneOfEach, Instr.row], mask_wordXYN ..⟩
theorem skp (x : Nibble) : Statement (.skp x) := ⟨by simp [opcodeRows, oneOfEach, Instr.row], mask_byte ..⟩
theorem sknp (x : Nibble) : Statement (.sknp x) := ⟨by simp [opcodeRows, oneOfEach, Instr.row], mask_byte ..⟩
theorem ldVxDt (x : Nibble) : Statement (.ldVxDt x) := ⟨by simp [opcodeRows, oneOfEach, Instr.row], mask_byte ..⟩
theorem ldVxK (x : Nibble) : Statement (.ldVxK x) := ⟨by simp [opcodeRows, oneOfEach, Instr.row], mask_byte ..⟩
theorem ldDtVx (x : Nibble) : Statement (.ldDtVx x) := ⟨by simp [opcodeRows, oneOfEach, Instr.row], mask_byte ..⟩
theorem ldStVx (x : Nibble) : Statement (.ldStVx x) := ⟨by simp [opcodeRows, oneOfEach, Instr.row], mask_byte ..⟩
theorem addI (x : Nibble) : Statement (.addI x) := ⟨by simp [opcodeRows, oneOfEach, Instr.row], mask_byte ..⟩
theorem ldF (x : Nibble) : Statement (.ldF x) := ⟨by simp [opcodeRows, oneOfEach, Instr.row], mask_byte ..⟩
theorem ldB (x : Nibble) : Statement (.ldB x) := ⟨by simp [opcodeRows, oneOfEach, Instr.row], mask_byte ..⟩
theorem ldMemVx (x : Nibble) : Statement (.ldMemVx x) := ⟨by simp [opcodeRows, oneOfEach, Instr.row], mask_byte ..⟩
theorem ldVxMem (x : Nibble) : Statement (.ldVxMem x) := ⟨by simp [opcodeRows, oneOfEach, Instr.row], mask_byte ..⟩

end Sys2Proof.Laws.TableRow
end

