-- ==== Sys2Proof/Laws/Step.lean ====
section
/-! SUPPORT. Everything a step can do, said once. -/

namespace Sys2Proof.Machine

/-- What a CPU step in Running can do (R110): a fetch fault, an unknown opcode, or an instruction. -/
theorem cpuRun_cases (s : State) :
    (4096 ≤ s.pc.toNat + 1 ∧ cpuRun s = .next s.fetchFault) ∨
    (s.pc.toNat + 1 < 4096 ∧ decode s.fetchedWord = .unknown s.fetchedWord ∧ cpuRun s = .next s.fetched) ∨
    (s.pc.toNat + 1 < 4096 ∧ ∃ i, decode s.fetchedWord = .known i ∧ cpuRun s = exec i s.fetched) := by
  have hu : ∀ op w, decode op = .unknown w → w = op := by
    intro op w h
    unfold decode decodeAlu decodeKey decodeMisc at h
    repeat' (split at h)
    all_goals first | (cases h; rfl) | cases h
  unfold cpuRun
  by_cases hf : 4096 ≤ s.pc.toNat + 1
  · exact .inl ⟨hf, by rw [if_pos]; simpa [State.fetchFails, Config.memSize] using hf⟩
  · have hn : ¬ s.fetchFails = true := by simpa [State.fetchFails, Config.memSize] using hf
    rw [if_neg hn]
    cases hd : decode s.fetchedWord with
    | known i => exact .inr (.inr ⟨by omega, i, rfl, rfl⟩)
    | unknown w => exact .inr (.inl ⟨by omega, by rw [hu _ _ hd], rfl⟩)

/-- Everything a step that answers a next state can do: the host's reset; or, in Running or AwaitingKey, a tick, a quit,
a wait step; or, in Running, a CPU step that ends in a fetch fault, an unknown opcode or an instruction. -/
theorem step_cases {s t : State} (h : step s = .next t) :
    (∃ l, s.env.turn = .reset l ∧ l.program.length ≤ 3584 ∧ t = (launched l s).nextInputs) ∨
    (s.run.live = true ∧ s.env.turn = .tick ∧ t = (timerTick s).nextInputs) ∨
    (s.run.live = true ∧ s.env.turn = .quit ∧ t = (hostQuit s).nextInputs) ∨
    (∃ x, s.run = .awaitingKey x ∧ s.env.turn = .cpu ∧ t = endCpuStep (waitResolve x s)) ∨
    (s.run = .running ∧ s.env.turn = .cpu ∧ ∃ u, cpuRun s = .next u ∧ t = endCpuStep u) := by
  unfold step at h
  cases ht : s.env.turn with
  | reset l =>
    simp only [ht] at h
    rcases hostReset_cases l s with ⟨hl, hu⟩ | ⟨-, hu⟩ <;> rw [hu] at h
    · cases h; exact .inl ⟨l, rfl, hl, rfl⟩
    · cases h
  | tick =>
    cases hr : s.run <;> simp only [ht, hr] at h <;> cases h <;>
      exact .inr (.inl ⟨rfl, rfl, rfl⟩)
  | quit =>
    cases hr : s.run <;> simp only [ht, hr] at h <;> cases h <;>
      exact .inr (.inr (.inl ⟨rfl, rfl, rfl⟩))
  | cpu =>
    cases hr : s.run with
    | running =>
      simp only [ht, hr] at h
      cases hc : cpuRun s <;> rw [hc] at h <;> cases h
      exact .inr (.inr (.inr (.inr ⟨rfl, rfl, _, rfl, rfl⟩)))
    | awaitingKey x =>
      simp only [ht, hr] at h
      cases h
      exact .inr (.inr (.inr (.inl ⟨x, rfl, rfl, rfl⟩)))
    | halted r => simp only [ht, hr] at h; cases h
    | terminated => simp only [ht, hr] at h; cases h

end Sys2Proof.Machine
end

