-- ==== Sys2Proof/Tests/Slice0.lean ====
section
/-! SUPPORT. The model's own tests: the checks refuse ill-formed terms, the decoder reads words written out from the
patterns of R84, one step on a small state gives what the vectors of spec/95_test_vectors.md say, and the hypotheses of
every statement are met somewhere. -/

namespace Sys2Proof.Tests

open Sys2Proof.Machine

/-! ## Small states -/

/-- No key down. -/
def noKeys : Keypad := Vector.replicate 16 false

/-- The keypad with the given keys down. -/
def keysDown (ks : List Nibble) : Keypad := Vector.ofFn fun k => decide (BitVec.ofNat 4 k.val ∈ ks)

/-- Inputs of a step: whose turn it is and the keys; the random byte of vector AL37. -/
def inputs (t : Turn) (ks : List Nibble) : Env :=
  { turn := t, keys := keysDown ks, rnd := 0xB6, oobKey := false, choice := 0 }

/-- The state right after reset with the given registers, its next step with the given turn and keys. -/
def start (t : Turn) (ks : List Nibble) (regs : List (Nibble × Byte)) : State :=
  regs.foldl (fun s r => s.writeV r.1 r.2) { State.reset with script := [inputs t ks] }

/-- A CPU step's state with the given registers and no key down. -/
def cpu (regs : List (Nibble × Byte)) : State := start .cpu [] regs

/-- What `f` reads in the next state, if there is one. -/
def reads {α : Type} (o : Host.Outcome State Fault Refusal) (f : State → α) : Option α :=
  match o with
  | .next t => some (f t)
  | .fault _ => none
  | .refused _ => none

/-- What `f` reads after one step that runs the word `w` from `s`. -/
def after {α : Type} (w : Nat) (s : State) (f : State → α) : Option α := reads (step (s.withFetchWord 16 w)) f

/-- The registers Vx and VF. -/
def vAndFlag (x : Nibble) (t : State) : Byte × Byte := (t.readV x, t.readV 0xF)

/-- Bytes of memory from `a` on. -/
def bytesFrom (a n : Nat) (t : State) : List Byte := (List.range n).map fun k => t.byteAt (a + k)

/-- The record of a halted state. -/
def recordIn (t : State) : Option FaultRecord := t.faultRecord

/-- `s` with bytes in memory from `a` on. -/
def withBytes (a : Nat) (ws : List Byte) (s : State) : State := s.setMem (s.mem.writeBytes a ws)

/-- A launch with the default font, the given image and nothing else. -/
def launchOf (program : List Byte) : Launch :=
  { font := Vector.ofFn fun k => (fontLow ++ fontHigh)[k.val]?.getD 0
    program := program, memInit := [], v := Vector.replicate 16 0x77, i := 0x123, dt := 5, st := 6 }

/-! ## The checks -/

/-- An image of 3584 bytes fits, one of 3585 does not (D22). -/
theorem test_wellformed_program :
    programFits (List.replicate 3584 0) = true ∧ programFits (List.replicate 3585 0) = false := by
  simp only [programFits, List.length_replicate]; decide

/-- A stack without entries is refused (D8). -/
theorem test_wellformed_params :
    Config.defaults.wellFormed = true ∧ ({ Config.defaults with stackDepth := 0 } : Params).wellFormed = false := by
  decide

/-- The greatest fields of each form are accepted; a field's type has no greater one (R81). -/
theorem test_wellformed_fields :
    (Instr.drw 0xF 0xF 0xF).wellFormed = true ∧ (Instr.jp 0xFFF).wellFormed = true ∧
      (Instr.rnd 0xF 0xFF).wellFormed = true := by decide

/-- A reset loads the font and the image (R270). -/
theorem test_reset_loads :
    reads (step (start (.reset (launchOf [0x12, 0x34])) [] [])) (fun t => (bytesFrom 0x200 2 t, bytesFrom 0x32 5 t)) =
      some ([0x12, 0x34], [0xF0, 0x90, 0xF0, 0x90, 0x90]) := by decide +kernel

/-- A reset with no image and the default font leaves the state right after reset, the model's own fields as they were. -/
theorem test_reset_is_reset : launched (launchOf []) State.reset = State.reset := by decide +kernel

/-! ## Decoding: words written out bit by bit from the patterns of R84, one for each constructor -/

theorem test_decode_words_0_to_7 :
    [0b0000000011100000#16, 0b0000000011101110#16, 0b0001001000110100#16, 0b0010001100010000#16, 0b0011001101000010#16,
      0b0100001101000010#16, 0b0101000100100000#16, 0b0110101001111011#16, 0b0111000111111111#16].map decode =
    [.known .cls, .known .ret, .known (.jp 0x234), .known (.call 0x310), .known (.seImm 3 0x42),
      .known (.sneImm 3 0x42), .known (.seReg 1 2), .known (.ldImm 0xA 0x7B), .known (.addImm 1 0xFF)] := by decide

theorem test_decode_words_8 :
    [0b1000000100100000#16, 0b1000000100100001#16, 0b1000000100100010#16, 0b1000000100100011#16, 0b1000000100100100#16,
      0b1000000100100101#16, 0b1000000100100110#16, 0b1000000100100111#16, 0b1000000100101110#16].map decode =
    [.known (.ldReg 1 2), .known (.orReg 1 2), .known (.andReg 1 2), .known (.xorReg 1 2), .known (.addReg 1 2),
      .known (.sub 1 2), .known (.shr 1 2), .known (.subn 1 2), .known (.shl 1 2)] := by decide

theorem test_decode_words_9_to_E :
    [0b1001000100100000#16, 0b1010001100000000#16, 0b1011001100000000#16, 0b1100001100001111#16, 0b1101000100100101#16,
      0b1110010110011110#16, 0b1110010110100001#16].map decode =
    [.known (.sneReg 1 2), .known (.ldI 0x300), .known (.jpV0 0x300), .known (.rnd 3 0x0F), .known (.drw 1 2 5),
      .known (.skp 5), .known (.sknp 5)] := by decide

theorem test_decode_words_F :
    [0b1111001100000111#16, 0b1111001100001010#16, 0b1111001100010101#16, 0b1111010000011000#16, 0b1111001000011110#16,
      0b1111000000101001#16, 0b1111000000110011#16, 0b1111001001010101#16, 0b1111001001100101#16].map decode =
    [.known (.ldVxDt 3), .known (.ldVxK 3), .known (.ldDtVx 3), .known (.ldStVx 4), .known (.addI 2), .known (.ldF 0),
      .known (.ldB 0), .known (.ldMemVx 2), .known (.ldVxMem 2)] := by decide

/-- Words of R85 that no row matches, in each family that has any. -/
theorem test_decode_unknown_words :
    [0x0123#16, 0x5121#16, 0x8128#16, 0x812F#16, 0x9121#16, 0xE1FF#16, 0xF1FF#16, 0xF100#16].map decode =
    [.unknown 0x0123, .unknown 0x5121, .unknown 0x8128, .unknown 0x812F, .unknown 0x9121, .unknown 0xE1FF,
      .unknown 0xF1FF, .unknown 0xF100] := by decide

/-- The first byte in memory is the high one (R55). -/
theorem test_decode_byte_order :
    decodeBytes 0x12 0x34 = .known (.jp 0x234) ∧ decodeTableWord 16 0x1234 = some (.jp 0x234) ∧
      decodeTableWord 16 0x5121 = none := by decide

/-- 34 rows, and no word matches two of them: each two differ in a bit that both masks fix (R87). -/
theorem test_decode_rows_disjoint :
    opcodeRows.length = 34 ∧
      opcodeRows.Pairwise fun r q => (r.bits ^^^ q.bits) &&& (r.mask &&& q.mask) ≠ 0 := by decide

/-! ## Control flow: vectors CF1 to CF20 -/

/-- CF7. -/
theorem test_ret_pops :
    after 0x00EE ((cpu []).setStack [0x206, 0x30A]) (fun t => (t.pc, t.stack)) = some (0x30A, [0x206]) := by decide

/-- CF6, program P5. -/
theorem test_ret_underflow :
    after 0x00EE (cpu []) (fun t => (t.pc, t.run)) =
      some (0x202, .halted ⟨.stackUnderflow, 0x200, some 0x00EE, none⟩) := by decide

/-- CF1. -/
theorem test_jp : after 0x1ABC (cpu []) (fun t => t.pc) = some 0xABC := by decide

/-- CF3. -/
theorem test_call_pushes :
    after 0x2300 ((cpu []).setPc 0x204) (fun t => (t.pc, t.stack)) = some (0x300, [0x206]) := by decide

/-- CF4. -/
theorem test_call_overflow :
    after 0x2300 (((cpu []).setPc 0x204).setStack (List.replicate 16 0x300)) (fun t => (t.pc, t.stack.length, t.run)) =
      some (0x206, 16, .halted ⟨.stackOverflow, 0x204, some 0x2300, none⟩) := by decide

/-- CF9. -/
theorem test_se_imm :
    after 0x3342 (cpu [(3, 0x42)]) State.pc = some 0x204 ∧ after 0x3341 (cpu [(3, 0x42)]) State.pc = some 0x202 := by
  decide

/-- CF10. -/
theorem test_sne_imm :
    after 0x4342 (cpu [(3, 0x42)]) State.pc = some 0x202 ∧ after 0x4341 (cpu [(3, 0x42)]) State.pc = some 0x204 := by
  decide

/-- CF12. -/
theorem test_se_reg :
    after 0x5120 (cpu [(1, 9), (2, 9)]) State.pc = some 0x204 ∧
      after 0x5120 (cpu [(1, 9), (2, 8)]) State.pc = some 0x202 := by decide

/-- CF14. -/
theorem test_sne_reg :
    after 0x9120 (cpu [(1, 9), (2, 8)]) State.pc = some 0x204 ∧
      after 0x9120 (cpu [(1, 9), (2, 9)]) State.pc = some 0x202 := by decide

/-- CF19: the offset is V0, not Vx. -/
theorem test_jp_v0_register : after 0xB300 (cpu [(0, 5), (1, 0x50), (3, 0x50)]) State.pc = some 0x305 := by decide

/-- CF17: the sum wraps at 0x1000. -/
theorem test_jp_v0_wraps : after 0xBFFF (cpu [(0, 2)]) State.pc = some 0x001 := by decide

/-- CF20: a skip does not wrap. -/
theorem test_skip_to_the_end : after 0x3342 ((cpu [(3, 0x42)]).setPc 0xFFC) State.pc = some 0x1000 := by decide

/-! ## The ALU: vectors W1 to W6 and AL1 to AL39 -/

/-- AL1. -/
theorem test_ld_imm : after 0x6A7B (cpu []) (State.readV · 0xA) = some 0x7B := by decide

/-- AL2. -/
theorem test_add_imm_no_flag : after 0x7101 (cpu [(1, 0xFF), (0xF, 0x55)]) (vAndFlag 1) = some (0x00, 0x55) := by decide

/-- AL4. -/
theorem test_add_imm_vf : after 0x7F02 (cpu [(0xF, 0xFF)]) (State.readV · 0xF) = some 0x01 := by decide

/-- AL5. -/
theorem test_ld_reg : after 0x8120 (cpu [(2, 0x33)]) (vAndFlag 1) = some (0x33, 0) := by decide

/-- AL6. -/
theorem test_or : after 0x8121 (cpu [(1, 0x0F), (2, 0xF0), (0xF, 7)]) (vAndFlag 1) = some (0xFF, 7) := by decide

/-- AL7. -/
theorem test_and : after 0x8122 (cpu [(1, 0x3C), (2, 0x0F), (0xF, 7)]) (vAndFlag 1) = some (0x0C, 7) := by decide

/-- AL8. -/
theorem test_xor : after 0x8123 (cpu [(1, 0x3C), (2, 0x0F), (0xF, 7)]) (vAndFlag 1) = some (0x33, 7) := by decide

/-- W1 and AL16: the carry, and VF as the addend. -/
theorem test_add_reg :
    after 0x8014 (cpu [(0, 250), (1, 10)]) (vAndFlag 0) = some (4, 1) ∧
      after 0x80F4 (cpu [(0, 0x10), (0xF, 1)]) (vAndFlag 0) = some (0x11, 0) := by decide

/-- AL15: VF as the destination, in both orders. -/
theorem test_add_reg_vf :
    after 0x8F14 (cpu [(0xF, 200), (1, 100)]) (State.readV · 0xF) = some 1 ∧
      after 0x8F14 { cpu [(0xF, 200), (1, 100)] with cfg := { Config.defaults with vfOrder := .resultLast } }
        (State.readV · 0xF) = some 44 := by decide

/-- W3 and W4. -/
theorem test_sub :
    after 0x8015 (cpu [(0, 5), (1, 3)]) (vAndFlag 0) = some (2, 1) ∧
      after 0x8015 (cpu [(0, 3), (1, 5)]) (vAndFlag 0) = some (254, 0) := by decide

/-- AL17: equal operands borrow nothing. -/
theorem test_sub_equal : after 0x8015 (cpu [(0, 7), (1, 7)]) (vAndFlag 0) = some (0, 1) := by decide

/-- AL23 and AL24. -/
theorem test_subn :
    after 0x8017 (cpu [(0, 3), (1, 5)]) (vAndFlag 0) = some (2, 1) ∧
      after 0x8017 (cpu [(0, 5), (1, 3)]) (vAndFlag 0) = some (254, 0) := by decide

/-- AL27 and W6: the source is Vy. -/
theorem test_shr :
    after 0x8016 (cpu [(0, 0xFF), (1, 1)]) (vAndFlag 0) = some (0, 1) ∧
      after 0x8016 (cpu [(1, 2)]) (vAndFlag 0) = some (1, 0) := by decide

/-- AL29: the source is Vx under `SHIFT_SOURCE = VX`, and V1 keeps its value. -/
theorem test_shr_vx :
    after 0x8016 { cpu [(0, 3), (1, 0xFF)] with cfg := { Config.defaults with shiftSource := .vx } }
      (fun t => (vAndFlag 0 t, t.readV 1)) = some ((1, 1), 0xFF) := by decide

/-- AL32 and AL34. -/
theorem test_shl :
    after 0x801E (cpu [(1, 0x81)]) (vAndFlag 0) = some (2, 1) ∧
      after 0x801E (cpu [(1, 0x7F)]) (vAndFlag 0) = some (0xFE, 0) := by decide

/-- AL37. -/
theorem test_rnd : after 0xC30F (cpu []) (State.readV · 3) = some 0x06 := by decide

/-! ## The address register and memory: vectors MM1 to MM17 -/

/-- MM1. -/
theorem test_ld_i : after 0xA300 (cpu []) State.i = some 0x300 := by decide

/-- MM3: 12-bit wraparound, and VF keeps its value. -/
theorem test_add_i_wraps :
    after 0xF21E ((cpu [(2, 1), (0xF, 7)]).setI 0xFFF) (fun t => (t.i, t.readV 0xF)) = some (0, 7) := by decide

/-- MM5 and MM6. -/
theorem test_ld_f :
    after 0xF029 (cpu [(0, 0xA)]) State.i = some 0x032 ∧ after 0xF029 (cpu [(0, 0xFF)]) State.i = some 0x4FB := by decide

/-- MM7. -/
theorem test_ld_b :
    after 0xF033 ((cpu [(0, 123)]).setI 0x300) (fun t => (bytesFrom 0x300 3 t, t.i)) = some ([1, 2, 3], 0x300) := by decide

/-- MM8 and MM9: the last place that fits, and the first that does not. -/
theorem test_ld_b_bounds :
    after 0xF033 ((cpu [(0, 123)]).setI 0xFFD) (bytesFrom 0xFFD 3) = some [1, 2, 3] ∧
      after 0xF033 ((cpu [(0, 123)]).setI 0xFFE) (fun t => (t.pc, t.mem.listed 0xFFE, t.run)) =
        some (0x202, none, .halted ⟨.memoryOutOfBounds, 0x200, some 0xF033, some 0x1000⟩) := by decide

/-- MM10: V3 is not stored, I stays. -/
theorem test_ld_mem_vx :
    after 0xF255 ((cpu [(0, 0xAA), (1, 0xBB), (2, 0xCC), (3, 0xDD)]).setI 0x400)
      (fun t => (bytesFrom 0x400 3 t, t.mem.listed 0x403, t.i)) = some ([0xAA, 0xBB, 0xCC], none, 0x400) := by decide

/-- MM12 and MM13. -/
theorem test_ld_mem_vx_bounds :
    after 0xFF55 ((cpu [(0xF, 9)]).setI 0xFF0) (State.byteAt · 0xFFF) = some 9 ∧
      after 0xFF55 ((cpu [(0xF, 9)]).setI 0xFF1) (fun t => (t.mem.listed 0xFF1, recordIn t)) =
        some (none, some ⟨.memoryOutOfBounds, 0x200, some 0xFF55, some 0x1000⟩) := by decide

/-- MM14: the registers above x keep their values, I stays. -/
theorem test_ld_vx_mem :
    after 0xF265 (withBytes 0x300 [1, 2, 3, 4] ((cpu [(3, 0x77)]).setI 0x300))
      (fun t => ([t.readV 0, t.readV 1, t.readV 2, t.readV 3], t.i)) = some ([1, 2, 3, 0x77], 0x300) := by decide

/-- MM16. -/
theorem test_ld_vx_mem_bounds :
    after 0xF165 ((cpu [(0, 7), (1, 8)]).setI 0xFFF) (fun t => (t.readV 0, t.readV 1, (recordIn t).isSome)) =
      some (7, 8, true) := by decide

/-- MM17: the font can be overwritten (D17), and writing its own byte back leaves nothing listed. -/
theorem test_font_is_writable :
    after 0xF055 (cpu [(0, 0xAB)]) (State.byteAt · 0) = some 0xAB ∧
      after 0xF055 (cpu [(0, 0xF0)]) (fun t => t.mem.listed 0) = some none := by decide

/-! ## The framebuffer: vectors DS1 to DS11 -/

/-- DS1. -/
theorem test_cls :
    after 0x00E0 ((cpu [(0xF, 7)]).setFb (Frame.blank.setPixel 63 31 true)) (fun t => (t.fb.pixel 63 31, t.readV 0xF)) =
      some (false, 7) := by decide

/-- DS3: coordinates wrap. -/
theorem test_drw_wraps :
    after 0xD011 (withBytes 0x300 [0x80] ((cpu [(0, 70), (1, 40)]).setI 0x300)) (fun t => (t.fb.pixel 6 8, t.readV 0xF)) =
      some (true, 0) := by decide

/-- DS5: a set pixel is cleared and reported. -/
theorem test_drw_collides :
    after 0xD011 (withBytes 0x300 [0x80] (((cpu [(0, 10), (1, 5)]).setI 0x300).setFb (Frame.blank.setPixel 10 5 true)))
      (fun t => (t.fb.pixel 10 5, t.readV 0xF)) = some (false, 1) := by decide

/-! ## The keypad and the timers: vectors KT1 to KT13 -/

/-- KT1 and KT2. -/
theorem test_skp :
    after 0xE59E (start .cpu [0xA] [(5, 0xA)]) State.pc = some 0x204 ∧
      after 0xE59E (start .cpu [] [(5, 0xA)]) State.pc = some 0x202 := by decide

/-- KT3 under `KEY_OOB = LOW_NIBBLE`. -/
theorem test_skp_low_nibble :
    after 0xE59E { start .cpu [0xA] [(5, 0x1A)] with cfg := { Config.defaults with keyOob := .lowNibble } } State.pc =
      some 0x204 := by decide

/-- KT1 and KT2. -/
theorem test_sknp :
    after 0xE5A1 (start .cpu [0xA] [(5, 0xA)]) State.pc = some 0x202 ∧
      after 0xE5A1 (start .cpu [] [(5, 0xA)]) State.pc = some 0x204 := by decide

/-- KT4. -/
theorem test_ld_vx_dt : after 0xF307 ((cpu []).setDt 0x3C) (State.readV · 3) = some 0x3C := by decide

/-- KT8. -/
theorem test_ld_vx_k :
    after 0xF30A (start .cpu [7] [(3, 9)]) (fun t => (t.run, t.pc, t.readV 3, keyDown t.keysPrev 7)) =
      some (.awaitingKey 3, 0x202, 9, true) := by decide

/-- KT5. -/
theorem test_ld_dt_vx : after 0xF315 (cpu [(3, 0x3C)]) State.dt = some 0x3C := by decide

/-- KT6. -/
theorem test_ld_st_vx : after 0xF418 (cpu [(4, 2)]) (fun t => (t.st, t.soundActive)) = some (2, true) := by decide

/-! ## Steps around the instructions -/

/-- KT9: the wait ends, with no fetch. -/
theorem test_wait_ends :
    reads (step ((start .cpu [7] []).setRun (.awaitingKey 3))) (fun t => (t.readV 3, t.run, t.pc)) =
      some (7, .running, 0x200) := by decide

/-- KT10: a held key does not end the wait. -/
theorem test_wait_held_key :
    reads (step (((start .cpu [7] [(3, 9)]).setRun (.awaitingKey 3)).setKeysPrev (keysDown [7])))
      (fun t => (t.readV 3, t.run)) = some (9, .awaitingKey 3) := by decide

/-- KT11: two keys at once; the least, unless the environment chooses the other. -/
theorem test_wait_two_keys :
    reads (step ((start .cpu [3, 9] []).setRun (.awaitingKey 3))) (State.readV · 3) = some 3 ∧
      reads (step { (start .cpu [] []).setRun (.awaitingKey 3) with
        script := [{ inputs .cpu [3, 9] with choice := 9 }] }) (State.readV · 3) = some 9 := by decide

/-- KT7 and KT12. -/
theorem test_tick :
    reads (step ((start .tick [] []).setDt 1)) (fun t => (t.dt, t.st)) = some (0, 0) ∧
      reads (step (((start .tick [] []).setDt 5).setRun (.awaitingKey 3))) (fun t => (t.dt, t.run)) =
        some (4, .awaitingKey 3) := by decide

/-- KT13. -/
theorem test_quit :
    reads (step ((start .quit [] []).setRun (.awaitingKey 3))) (fun t => (t.run, t.finished)) =
      some (.terminated, true) := by decide

/-- FD3 and FD4. -/
theorem test_fetch_fault :
    reads (step ((cpu []).setPc 0x1000)) (fun t => (t.pc, recordIn t)) =
        some (0x1000, some ⟨.memoryOutOfBounds, 0x1000, none, some 0x1000⟩) ∧
      reads (step ((cpu []).setPc 0xFFF)) (fun t => (t.pc, recordIn t)) =
        some (0xFFF, some ⟨.memoryOutOfBounds, 0xFFF, none, some 0x1000⟩) := by decide

/-- FD2 and FD5: the last word of memory, and an odd address. -/
theorem test_fetch_edges :
    after 0x00E0 ((cpu []).setPc 0xFFE) State.pc = some 0x1000 ∧
      after 0x6005 ((cpu []).setPc 0x201) (fun t => (t.readV 0, t.pc)) = some (5, 0x203) := by decide

/-- FD9: an unknown word only advances the pc. -/
theorem test_unknown_word :
    after 0x8128 (cpu [(1, 5), (2, 6)]) (fun t => (t.pc, t.readV 1, t.run)) = some (0x202, 5, .running) := by decide

/-- A halted machine takes no step but the host's reset. -/
theorem test_halted :
    step ((start .tick [] []).setRun (.halted ⟨.stackUnderflow, 0x200, some 0x00EE, none⟩)) =
        .fault (.halted ⟨.stackUnderflow, 0x200, some 0x00EE, none⟩) ∧
      reads (step ((start (.reset (launchOf [])) [] []).setRun (.halted ⟨.stackUnderflow, 0x200, some 0x00EE, none⟩)))
        State.run = some .running := ⟨rfl, by decide⟩

/-! ## Witnesses: for each statement with hypotheses, a state and operands that meet them, one for each clause, at the
boundary where the clauses meet -/

/-- The state with bytes at the pc, for a step of the CPU. -/
def at200 (ws : List Byte) : State := withBytes 0x200 ws (cpu [])

/-- The next state of an outcome, or the state given. -/
def nextOr (o : Host.Outcome State Fault Refusal) (s : State) : State :=
  match o with
  | .next t => t
  | .fault _ => s
  | .refused _ => s

theorem witness_DecodeOfEncodeIsIdentity : (Instr.drw 0xF 0 0xF).wellFormed = true := by decide

theorem witness_EncodeOfDecodeIsIdentity : decode 0xFF65 = .known (.ldVxMem 0xF) := by decide

/-- Both cases: a word of a row, and one of none. -/
theorem witness_DecodingFollowsTheOpcodeTable : decode 0x8FFE = .known (.shl 0xF 0xF) ∧ decode 0x8FFF = .unknown 0x8FFF := by
  decide

/-- The last address a fetch succeeds at, 0xFFE. -/
theorem witness_StepRunsTheDecodedInstruction :
    let s := withBytes 0xFFE [0x00, 0xE0] ((cpu []).setPc 0xFFE)
    (s.env.turn = .cpu ∧ s.run = .running ∧ s.pc.toNat + 1 < 4096 ∧
      decode (s.byteAt s.pc.toNat ++ s.byteAt (s.pc.toNat + 1)) = .known .cls) ∧
      ∃ t, exec .cls { s with pc := s.pc + 2 } = .next t := ⟨by decide, _, rfl⟩

theorem witness_UnknownOpcodeOnlyAdvancesThePc :
    let s := at200 [0x81, 0x28]
    s.env.turn = .cpu ∧ s.run = .running ∧ s.pc.toNat + 1 < 4096 ∧
      decode (s.byteAt s.pc.toNat ++ s.byteAt (s.pc.toNat + 1)) = .unknown 0x8128 := by decide

/-- The first address a fetch fails at, 0xFFF, and the first outside memory by more than one, 0x1001. -/
theorem witness_FetchBeyondMemoryHalts :
    ((cpu []).env.turn = .cpu ∧ (cpu []).run = .running) ∧ 4096 ≤ ((cpu []).setPc 0xFFF).pc.toNat + 1 ∧
      4096 ≤ ((cpu []).setPc 0x1001).pc.toNat + 1 := ⟨⟨rfl, rfl⟩, by decide, by decide⟩

theorem witness_HaltedAndTerminatedTakeNoStep :
    ((start .tick [] []).env.turn = .tick ∧ Turn.tick ≠ .reset (launchOf [])) ∧
      ((start .quit [] []).setRun (.halted ⟨.stackUnderflow, 0x200, some 0x00EE, none⟩)).run =
        .halted ⟨.stackUnderflow, 0x200, some 0x00EE, none⟩ ∧
      ((start .cpu [] []).setRun .terminated).run = .terminated := by decide

/-- A key is down, but it was before. -/
theorem witness_WaitGoesOnWithoutANewKey :
    let s := ((start .cpu [7] []).setRun (.awaitingKey 3)).setKeysPrev (keysDown [7])
    s.env.turn = .cpu ∧ s.run = .awaitingKey 3 ∧ ∀ k, ¬ (keyDown s.env.keys k = true ∧ keyDown s.keysPrev k = false) := by
  decide

/-- Keys 3 and 9 newly pressed: with 9 chosen, and with a choice that is not among them. -/
theorem witness_NewKeyEndsTheWait :
    ∀ choice ∈ [0x9#4, 0x0#4],
      let s := { (cpu []).setRun (.awaitingKey 3) with script := [{ inputs .cpu [3, 9] with choice := choice }] }
      s.env.turn = .cpu ∧ s.run = .awaitingKey 3 ∧ (keyDown s.env.keys 9 = true ∧ keyDown s.keysPrev 9 = false) ∧
        (choice = 0 → ¬ (keyDown s.env.keys s.env.choice = true ∧ keyDown s.keysPrev s.env.choice = false)) := by decide

/-- Keys 7 and 9 are held before; 9 is released at once and 7 one step later, and nothing is pressed anew. -/
theorem witness_WaitLastsWhileNoKeyIsPressed :
    let es := [inputs .cpu [7], inputs .cpu []]
    let s := { (cpu []).setRun (.awaitingKey 3) with script := es, keysPrev := keysDown [7, 9] }
    (s.run = .awaitingKey 3 ∧ s.script = es ∧ ∀ e ∈ es, e.turn = .cpu) ∧ pressesNothingNew s.keysPrev es ∧
      ¬ keyDown ((es.map Env.keys).getLastD s.keysPrev) 7 = true :=
  ⟨by decide, ⟨by decide, by decide, trivial⟩, by decide⟩

theorem witness_TickDecrementsBothTimers :
    ((start .tick [] []).env.turn = .tick ∧ (start .tick [] []).run = .running) ∧
      ((start .tick [] []).setRun (.awaitingKey 3)).run = .awaitingKey 3 := by decide

theorem witness_QuitTerminatesCleanly :
    ((start .quit [] []).env.turn = .quit ∧ (start .quit [] []).run = .running) ∧
      ((start .quit [] []).setRun (.awaitingKey 3)).run = .awaitingKey 3 := by decide

/-- An image of two bytes, under each setting of `REG_INIT`. -/
theorem witness_HostResetStartsAnew :
    let l := launchOf [0x12, 0x34]
    (start (.reset l) [] []).env.turn = .reset l ∧ l.program.length ≤ 3584 ∧
      (start (.reset l) [] []).cfg.regInit = .zero ∧
      ({ start (.reset l) [] [] with cfg := { Config.defaults with regInit := .any } } : State).cfg.regInit = .any ∧
      (80 ≤ 0x202 ∧ 0x200 + l.program.length ≤ 0x202 ∧ 0x202 < 4096) ∧ (80 ≤ 80 ∧ 80 < 0x200) := by
  exact ⟨rfl, by decide, rfl, rfl, by decide, by decide⟩

/-- The longest image that loads still meets the hypotheses of `HostResetStartsAnew`; one byte more meets these. -/
theorem witness_OversizedImageIsRefused :
    (start (.reset (launchOf (List.replicate 3585 0))) [] []).env.turn = .reset (launchOf (List.replicate 3585 0)) ∧
      3584 < (launchOf (List.replicate 3585 0)).program.length ∧
      (launchOf (List.replicate 3584 0)).program.length ≤ 3584 := by
  refine ⟨rfl, ?_, ?_⟩ <;> simp only [launchOf, List.length_replicate] <;> decide

/-- The state right after reset meets the invariant and steps. -/
theorem witness_EveryStepKeepsTheInvariant :
    (Memory.wf (cpu []).mem ∧ (cpu []).cfg.wellFormed = true ∧ (cpu []).stack.length ≤ (cpu []).cfg.stackDepth ∧
      (∀ a ∈ (cpu []).stack, a.toNat ≤ 0x1000) ∧ (cpu []).pc.toNat ≤ 0x1002 ∧ (cpu []).run = .running) ∧
      (reads (step (at200 [0x00, 0xEE])) fun t => t.run.isHalted) = some true :=
  ⟨⟨by decide, by decide, by decide, by simp [cpu, start, State.reset], by decide, rfl⟩, by decide⟩

theorem witness_ParametersAreFixedForARun : (reads (step (at200 [0x00, 0xE0])) fun _ => ()) = some () := by decide

/-- For each component, an instruction that changes it. -/
theorem witness_OnlyTheListedInstructionsWrite :
    reads (exec (.ldB 0) (cpu [])) (State.byteAt · 0) = some 0 ∧ (cpu []).byteAt 0 = 0xF0 ∧
      reads (exec (.ldImm 3 7) (cpu [])) (State.readV · 3) = some 7 ∧
      reads (exec (.ldI 0x300) (cpu [])) State.i = some 0x300 ∧
      reads (exec (.call 0x300) (cpu [])) (fun t => (t.stack, t.pc)) = some ([0x200], 0x300) ∧
      reads (exec (.ldDtVx 1) (cpu [(1, 5)])) State.dt = some 5 ∧
      reads (exec (.ldStVx 1) (cpu [(1, 5)])) State.st = some 5 ∧
      reads (exec .cls ((cpu []).setFb (Frame.blank.setPixel 0 0 true))) (fun t => t.fb.pixel 0 0) = some false ∧
      reads (exec (.ldVxK 3) (cpu [])) State.run = some (.awaitingKey 3) ∧
      reads (exec .ret (cpu [])) (fun t => t.run.isHalted) = some true := by decide

/-- Each kind of fault is raised, and each of the five instructions is also without one, one address or entry earlier. -/
theorem witness_FaultsAreExactAndPrecise :
    faultOf .ret (cpu []) = some .stackUnderflow ∧ faultOf .ret ((cpu []).setStack [0x206]) = none ∧
      faultOf (.call 0x300) ((cpu []).setStack (List.replicate 16 0x206)) = some .stackOverflow ∧
      faultOf (.call 0x300) ((cpu []).setStack (List.replicate 15 0x206)) = none ∧
      faultOf (.drw 0 0 2) ((cpu []).setI 0xFFF) = some .memoryOutOfBounds ∧
      faultOf (.drw 0 0 1) ((cpu []).setI 0xFFF) = none ∧
      faultOf (.ldB 0) ((cpu []).setI 0xFFE) = some .memoryOutOfBounds ∧ faultOf (.ldB 0) ((cpu []).setI 0xFFD) = none ∧
      faultOf (.ldMemVx 1) ((cpu []).setI 0xFFF) = some .memoryOutOfBounds ∧
      faultOf (.ldVxMem 0) ((cpu []).setI 0xFFF) = none := by decide

theorem witness_NoInstructionReadsTheSoundTimer : ∀ x, Instr.cls ≠ .ldStVx x := by decide

theorem witness_ReturnPopsIntoThePc :
    ((cpu []).setStack [0x206, 0x1000]).stack = [0x206] ++ [0x1000] ∧ (cpu []).stack = [] := by decide

/-- One entry below capacity, and at capacity. -/
theorem witness_CallPushesAndJumps :
    ((cpu []).setStack (List.replicate 15 0x206)).stack.length ≠ (cpu []).cfg.stackDepth ∧
      ((cpu []).setStack (List.replicate 16 0x206)).stack.length = (cpu []).cfg.stackDepth := by decide

theorem witness_CallThenReturnResumes :
    ((cpu []).setStack (List.replicate 15 0x206)).stack.length ≠ (cpu []).cfg.stackDepth := by decide

/-- Equal registers, different ones, and a low nibble that is not 0. -/
theorem witness_SkipsComparingRegisters :
    (cpu [(1, 9), (2, 9)]).readV 1 = (cpu [(1, 9), (2, 9)]).readV 2 ∧
      (cpu [(1, 9), (2, 8)]).readV 1 ≠ (cpu [(1, 9), (2, 8)]).readV 2 ∧ (1#4 : Nibble) ≠ 0 := by decide

/-- The byte met and missed. -/
theorem witness_SkipsComparingWithAByte : (cpu [(1, 9)]).readV 1 = 9 ∧ (cpu [(1, 9)]).readV 1 ≠ 8 := by decide

/-- A register besides VF, and VF itself under each order; sums at 255 and 256. -/
theorem witness_AddRegistersSetsCarry :
    ((0 : Nibble) ≠ 0xF ∧ (cpu []).cfg.vfOrder = .flagLast) ∧
      ({ cpu [] with cfg := { Config.defaults with vfOrder := .resultLast } } : State).cfg.vfOrder = .resultLast ∧
      ((cpu [(0, 255), (1, 0)]).readV 0).toNat + ((cpu [(0, 255), (1, 0)]).readV 1).toNat = 255 ∧
      ((cpu [(0, 255), (1, 1)]).readV 0).toNat + ((cpu [(0, 255), (1, 1)]).readV 1).toNat = 256 := by decide

/-- Equal operands, and one less. -/
theorem witness_SubtractionsSetNoBorrow :
    ((cpu [(0, 7), (1, 7)]).readV 1).toNat ≤ ((cpu [(0, 7), (1, 7)]).readV 0).toNat ∧
      ¬ ((cpu [(0, 6), (1, 7)]).readV 1).toNat ≤ ((cpu [(0, 6), (1, 7)]).readV 0).toNat ∧
      ({ cpu [] with cfg := { Config.defaults with vfOrder := .resultLast } } : State).cfg.vfOrder = .resultLast := by decide

/-- The source under each setting of `SHIFT_SOURCE`. -/
theorem witness_ShiftsSetTheBitShiftedOut :
    let s := cpu [(0, 0x81), (1, 0x7E)]
    let t : State := { s with cfg := { Config.defaults with shiftSource := .vx } }
    0x7E#8 = (if s.cfg.shiftSource = .vy then s.readV 1 else s.readV 0) ∧
      0x81#8 = (if t.cfg.shiftSource = .vy then t.readV 1 else t.readV 0) := by decide

/-- The last place that fits, 0xFFD, and the first that does not. -/
theorem witness_StoreBcdWritesThreeDigits :
    ((cpu []).setI 0xFFD).i.toNat + 2 < 4096 ∧ 4096 ≤ ((cpu []).setI 0xFFE).i.toNat + 2 := by decide

/-- Sixteen registers at 0xFF0, and at 0xFF1. -/
theorem witness_RegisterDumpStoresV0ToVx :
    ((cpu []).setI 0xFF0).i.toNat + (0xF : Nibble).toNat < 4096 ∧
      4096 ≤ ((cpu []).setI 0xFF1).i.toNat + (0xF : Nibble).toNat := by decide

/-- One register at 0xFFF, and two. -/
theorem witness_RegisterLoadFillsV0ToVx :
    ((cpu []).setI 0xFFF).i.toNat + (0 : Nibble).toNat < 4096 ∧
      4096 ≤ ((cpu []).setI 0xFFF).i.toNat + (1 : Nibble).toNat := by decide

/-- The word at 0x200, the word after it, and two turns of the CPU. -/
def twoWords (ws : List Byte) (a : Addr) (regs : List (Nibble × Byte)) : State :=
  { (withBytes 0x200 ws (cpu regs)).setI a with script := [inputs .cpu [], inputs .cpu []] }

/-- A dump over both bytes of the next word (JP 0x234), over its first alone (0x60 makes 00E0 a LD V0), over none, a BCD
store over both (0x0203, unknown); the last pc that a second fetch follows, 0xFFC. -/
theorem witness_StoreIsSeenByTheNextFetch :
    let both := twoWords [0xF1, 0x55, 0, 0] 0x202 [(0, 0x12), (1, 0x34)]
    let first := twoWords [0xF0, 0x55, 0x00, 0xE0] 0x202 [(0, 0x60)]
    let none := twoWords [0xF0, 0x55, 0x00, 0xE0] 0x300 [(0, 0x60)]
    let bcd := twoWords [0xF0, 0x33, 0x00, 0xE0] 0x201 [(0, 123)]
    (both.env.turn = .cpu ∧ both.run = .running ∧ both.pc.toNat + 3 < 4096 ∧ (0xFFC#16).toNat + 3 < 4096) ∧
      (decode (both.byteAt 0x200 ++ both.byteAt 0x201) = .known (.ldMemVx 1) ∧ faultOf (.ldMemVx 1) both = .none ∧
        reads (step both) (fun t => t.env.turn) = some .cpu ∧
        decode (byteAfterStore (.ldMemVx 1) both 0x202 ++ byteAfterStore (.ldMemVx 1) both 0x203) = .known (.jp 0x234)) ∧
      (decode (byteAfterStore (.ldMemVx 0) first 0x202 ++ byteAfterStore (.ldMemVx 0) first 0x203) = .known (.ldImm 0 0xE0) ∧
        decode (byteAfterStore (.ldMemVx 0) none 0x202 ++ byteAfterStore (.ldMemVx 0) none 0x203) = .known .cls) ∧
      (decode (bcd.byteAt 0x200 ++ bcd.byteAt 0x201) = .known (.ldB 0) ∧ faultOf (.ldB 0) bcd = .none ∧
        reads (step bcd) (fun t => t.env.turn) = some .cpu ∧
        decode (byteAfterStore (.ldB 0) bcd 0x202 ++ byteAfterStore (.ldB 0) bcd 0x203) = .unknown 0x0203) := by decide

/-- A dump over the next word: the second step runs the jump it makes (R66). -/
theorem test_store_is_fetched :
    reads (Host.Core.run core 2 (twoWords [0xF1, 0x55, 0, 0] 0x202 [(0, 0x12), (1, 0x34)])) State.pc = some 0x234 := by
  decide

/-- A pixel that the sprite covers: set, and clear; a sprite of no row anywhere; the last row that fits and one more. -/
theorem witness_DrawXorsTheSpriteAndReportsCollision :
    let s := withBytes 0xFFF [0x80] ((cpu [(0, 10), (1, 5)]).setI 0xFFF)
    (s.i.toNat + (1 : Nibble).toNat - 1 < 4096 ∧ (2 : Nibble) ≠ 0 ∧ 4096 ≤ s.i.toNat + (2 : Nibble).toNat - 1) ∧
      (∃ k < (1 : Nibble).toNat, ∃ j < 8, (s.byteAt (s.i.toNat + k)).getLsbD (7 - j) = true ∧
        ((s.readV 0).toNat + j) % 64 = 10 ∧ ((s.readV 1).toNat + k) % 32 = 5) ∧
      s.fb.pixel 10 5 = false ∧ (s.setFb (Frame.blank.setPixel 10 5 true)).fb.pixel 10 5 = true := by decide

/-- The first draw sets a pixel; a second one from there clears it. -/
theorem witness_DrawingTwiceRestoresTheFramebuffer :
    let s := withBytes 0x300 [0x80] ((cpu [(0, 10), (1, 5)]).setI 0x300)
    let t := nextOr (exec (.drw 0 1 1) s) s
    ((0 : Nibble) ≠ 0xF ∧ (1 : Nibble) ≠ 0xF ∧ s.i.toNat + (1 : Nibble).toNat - 1 < 4096 ∧
      s.fb.pixel 10 5 = false ∧ t.fb.pixel 10 5 = true) ∧ exec (.drw 0 1 1) s = .next t :=
  ⟨by decide, rfl⟩

/-- An index below 16, the index 16 under `LOW_NIBBLE`, and the index 16 under `DRAW`. -/
theorem witness_KeySkipsSampleTheSnapshot :
    let key := fun (s : State) =>
      if (s.readV 5).toNat < 16 ∨ s.cfg.keyOob = .lowNibble
        then keyDown s.env.keys (BitVec.ofNat 4 ((s.readV 5).toNat % 16)) else s.env.oobKey
    key (start .cpu [0xF] [(5, 15)]) = true ∧ key (start .cpu [0] [(5, 16)]) = false ∧
      key { start .cpu [0] [(5, 16)] with cfg := { Config.defaults with keyOob := .lowNibble } } = true := by decide

end Sys2Proof.Tests
end

section
/-! PROOFS. Everything an instruction can do, said once: it takes the fault that `faultOf` names, or it meets no fault
condition and makes one of the updates of `Effect`. -/

namespace Sys2Proof.Machine

/-- An instruction that compares and skips (R116, R138). -/
def Instr.Skips (i : Instr) : Prop :=
  (∃ x n, i = .seImm x n) ∨ (∃ x n, i = .sneImm x n) ∨ (∃ x y, i = .seReg x y) ∨ (∃ x y, i = .sneReg x y) ∨
    (∃ x, i = .skp x) ∨ ∃ x, i = .sknp x

/-- The updates that an instruction makes where it does not fault, each with the instructions that make it (R36). -/
inductive Effect (i : Instr) (s : State) : State → Prop
  /-- FX33 and FX55. -/
  | store (a : Nat) (ws : List Byte) (hi : (∃ x, i = .ldB x) ∨ ∃ x, i = .ldMemVx x) :
      Effect i s (s.setMem (s.mem.writeBytes a ws))
  /-- Registers: those that differ are ones that `mayWriteV` lists. -/
  | regs (w : Vector Byte 16) (hw : ∀ r, (s.setRegs w).readV r ≠ s.readV r → mayWriteV i r = true) :
      Effect i s (s.setRegs w)
  | index (a : Addr) (hi : (∃ n, i = .ldI n) ∨ (∃ x, i = .addI x) ∨ ∃ x, i = .ldF x) : Effect i s (s.setI a)
  | jump (a : Addr) (hi : (∃ n, i = .jp n) ∨ ∃ n, i = .jpV0 n) : Effect i s (s.setPc (a.setWidth 16))
  | skip (c : Bool) (hi : Instr.Skips i) : Effect i s (s.skipIf c)
  | ret (l : List Word) (a : Word) (hs : s.stack = l ++ [a]) (hi : i = .ret) :
      Effect i s ((s.setStack l).setPc a)
  | call (n : Addr) (hs : s.stack.length ≠ s.cfg.stackDepth) (hi : i = .call n) :
      Effect i s ((s.setStack (s.stack ++ [s.pc])).setPc (n.setWidth 16))
  | delay (b : Byte) (hi : ∃ x, i = .ldDtVx x) : Effect i s (s.setDt b)
  | sound (b : Byte) (hi : ∃ x, i = .ldStVx x) : Effect i s (s.setSt b)
  | clear (hi : i = .cls) : Effect i s (s.setFb Frame.blank)
  | draw (f : Frame) (b : Byte) (hi : ∃ x y n, i = .drw x y n) : Effect i s ((s.setFb f).writeV vf b)
  | wait (x : Nibble) (hi : i = .ldVxK x) : Effect i s (s.setRun (.awaitingKey x))

/-- A write of one register is an effect of an instruction that has it as a destination. -/
theorem Effect.writeV {i : Instr} {s : State} {x : Nibble} (b : Byte) (hx : mayWriteV i x = true) :
    Effect i s (s.writeV x b) := by
  refine .regs _ fun r hr => ?_
  by_cases hrx : r = x
  · exact hrx ▸ hx
  · exact absurd (s.readV_writeV_other b hrx) hr

/-- A result with its flag is an effect of an instruction that has both registers as destinations (R117). -/
theorem Effect.writeResultAndFlag {i : Instr} {s : State} {x : Nibble} (res : Byte) (f : Bool)
    (hx : mayWriteV i x = true) (hvf : mayWriteV i vf = true) : Effect i s (s.writeResultAndFlag x res f) := by
  obtain ⟨w, hw⟩ := s.writeResultAndFlag_eq x res f
  rw [hw]
  refine .regs w fun r hr => ?_
  rw [← hw, State.readV_writeResultAndFlag] at hr
  by_cases hrx : r = x
  · exact hrx ▸ hx
  · by_cases hrf : r = vf
    · exact hrf ▸ hvf
    · simp [hrx, hrf] at hr

/-- The registers that FX65 loads are V0 to Vx (R185). -/
theorem Effect.loadedRegs (s : State) (x : Nibble) : Effect (.ldVxMem x) s (s.setRegs (s.loadedRegs x)) := by
  refine .regs _ fun r hr => ?_
  rw [State.readV_loadedRegs] at hr
  by_cases hrx : r.toNat ≤ x.toNat
  · simpa [mayWriteV] using hrx
  · simp [hrx] at hr

/-- An instruction meets a fault condition and halts with that fault's record (R247), or it meets none and has an
effect. -/
def FaultOrEffect (i : Instr) (s : State) : Prop :=
  (∃ k, faultOf i s = some k ∧ exec i s = .next (s.setRun (.halted (recordOf k i s)))) ∨
    (faultOf i s = none ∧ ∃ t, exec i s = .next t ∧ Effect i s t)

/-- An instruction that checks its `n` bytes from I on before it accesses them (R59) raises MemoryOutOfBounds exactly
where they do not lie inside memory, and else has its effect. -/
theorem access_cases {i : Instr} {s t : State} {n : Nat} {p : Prop} [Decidable p]
    (he : exec i s = if inMemory s.base n then .next t else .next (s.raiseBounds i))
    (hf : faultOf i s = if p then some .memoryOutOfBounds else none)
    (hp : p ↔ ¬ (n = 0 ∨ s.i.toNat + n ≤ 4096)) (ht : Effect i s t) : FaultOrEffect i s := by
  by_cases hm : inMemory s.base n = true
  · have hnp : ¬ p := fun h => hp.mp h ((inMemory_iff ..).mp hm)
    exact .inr ⟨hf.trans (if_neg hnp), t, he.trans (if_pos hm), ht⟩
  · have hp : p := hp.mpr fun h => hm ((inMemory_iff ..).mpr h)
    exact .inl ⟨.memoryOutOfBounds, hf.trans (if_pos hp), he.trans (if_neg hm)⟩

/-- Everything an instruction can do, in every state (R114, R247). -/
theorem exec_cases (i : Instr) (s : State) : FaultOrEffect i s := by
  cases i
  case cls => exact .inr ⟨rfl, _, rfl, .clear rfl⟩
  case ret =>
    simp only [FaultOrEffect, exec, execRet]
    rcases s.pop_cases with ⟨hs, hp⟩ | ⟨l, a, hs, hp⟩ <;> rw [hp]
    · exact .inl ⟨.stackUnderflow, by simp [faultOf, hs], rfl⟩
    · exact .inr ⟨by simp [faultOf, hs], _, rfl, .ret l a hs rfl⟩
  case call n =>
    simp only [FaultOrEffect, exec, execCall]
    rcases s.push_cases s.pc with ⟨hs, hp⟩ | ⟨hs, hp⟩ <;> rw [hp]
    · exact .inl ⟨.stackOverflow, by simp [faultOf, hs], rfl⟩
    · exact .inr ⟨by simp [faultOf, hs], _, rfl, .call n hs rfl⟩
  case drw x y n => exact access_cases (n := n.toNat) rfl rfl (by omega) (.draw _ _ ⟨x, y, n, rfl⟩)
  case ldB x => exact access_cases (n := 3) rfl rfl (by omega) (.store _ _ (.inl ⟨x, rfl⟩))
  case ldMemVx x => exact access_cases (n := x.toNat + 1) rfl rfl (by omega) (.store _ _ (.inr ⟨x, rfl⟩))
  case ldVxMem x => exact access_cases (n := x.toNat + 1) rfl rfl (by omega) (.loadedRegs s x)
  case jp n => exact .inr ⟨rfl, _, rfl, .jump _ (.inl ⟨n, rfl⟩)⟩
  case jpV0 n => exact .inr ⟨rfl, _, rfl, .jump _ (.inr ⟨n, rfl⟩)⟩
  case ldI n => exact .inr ⟨rfl, _, rfl, .index _ (.inl ⟨n, rfl⟩)⟩
  case addI x => exact .inr ⟨rfl, _, rfl, .index _ (.inr (.inl ⟨x, rfl⟩))⟩
  case ldF x => exact .inr ⟨rfl, _, rfl, .index _ (.inr (.inr ⟨x, rfl⟩))⟩
  case ldDtVx x => exact .inr ⟨rfl, _, rfl, .delay _ ⟨x, rfl⟩⟩
  case ldStVx x => exact .inr ⟨rfl, _, rfl, .sound _ ⟨x, rfl⟩⟩
  case ldVxK x => exact .inr ⟨rfl, _, rfl, .wait x rfl⟩
  case seImm | sneImm | seReg | sneReg | skp | sknp => exact .inr ⟨rfl, _, rfl, .skip _ (by simp [Instr.Skips])⟩
  case addReg | sub | shr | subn | shl =>
    exact .inr ⟨rfl, _, rfl, .writeResultAndFlag _ _ (by simp [mayWriteV]) (by simp [mayWriteV, vf])⟩
  case ldImm | addImm | ldReg | orReg | andReg | xorReg | rnd | ldVxDt =>
    exact .inr ⟨rfl, _, rfl, .writeV _ (by simp [mayWriteV])⟩

end Sys2Proof.Machine
end

section
/-! PROOFS. The invariant (O17, O18) and the parameters (O19): each part of a step keeps them. -/

namespace Sys2Proof.Machine

/-- The record of an instruction's fatal fault agrees with the pc, which is the instruction's address + 2 (R32). -/
theorem recordOf_agrees {k : ErrorKind} (i : Instr) (s : State) (hk : k.fatal = true) :
    (recordOf k i s).agrees s.pc := by
  refine ⟨hk, ?_, nofun, fun _ => (BitVec.sub_add_cancel ..).symm⟩
  by_cases h : k = .memoryOutOfBounds <;> simp [recordOf, h]

/-- The kinds that instructions raise are fatal ones (R241). -/
theorem faultOf_fatal {i : Instr} {s : State} {k : ErrorKind} (h : faultOf i s = some k) : k.fatal = true := by
  cases i <;> simp only [faultOf, reduceCtorEq, Option.ite_none_right_eq_some, Option.some.injEq] at h
  all_goals exact h.2 ▸ rfl

/-- A fault whose record agrees with the pc keeps the invariant (R32, R247). -/
theorem State.Inv.takeFault {s : State} (h : s.Inv) {r : FaultRecord} (hr : r.agrees s.pc) : (s.takeFault r).Inv := by
  obtain ⟨hm, hc, hl, hs, hp, -⟩ := h
  exact ⟨hm, hc, hl, hs, hp, fun r' hr' => by cases hr'; exact hr⟩

/-- The record of a fetch fault agrees with the pc, which stays where the fetch was tried (R112). -/
theorem State.Inv.fetchFault {s : State} (h : s.Inv) : s.fetchFault.Inv :=
  h.takeFault ⟨rfl, by simp, fun _ => ⟨rfl, rfl⟩, nofun⟩

/-- A new pc within the bound keeps the invariant, where no fault record speaks of the old one (R24). -/
theorem State.Inv.setPc {s : State} (h : s.Inv) (hr : s.run = .running) {a : Word} (ha : a.toNat ≤ 0x1002) :
    (s.setPc a).Inv := by
  obtain ⟨hm, hc, hl, hs, -, -⟩ := h
  exact ⟨hm, hc, hl, hs, ha, fun r hr' => by simp [hr] at hr'⟩

/-- A run state that is not Halted needs no record. -/
theorem State.Inv.setRun {s : State} (h : s.Inv) {r : Run} (hr : r.isHalted = false) : (s.setRun r).Inv := by
  obtain ⟨hm, hc, hl, hs, hp, -⟩ := h
  refine ⟨hm, hc, hl, hs, hp, fun f hf => ?_⟩
  rw [State.setRun_run] at hf
  simp [hf, Run.isHalted] at hr

/-- A stack within its capacity, with entries at most 0x1000, keeps the invariant (R25). -/
theorem State.Inv.setStack {s : State} (h : s.Inv) {l : List Word} (hl : l.length ≤ s.cfg.stackDepth)
    (ha : ∀ a ∈ l, a.toNat ≤ 0x1000) : (s.setStack l).Inv := by
  obtain ⟨hm, hc, -, -, hp, hf⟩ := h
  exact ⟨hm, hc, hl, ha, hp, hf⟩

/-- Every effect of an instruction keeps the invariant, from a state in which the fetch has succeeded (R111). -/
theorem Effect.inv {i : Instr} {s t : State} (h : Effect i s t) (hs : s.Inv) (hr : s.run = .running)
    (hp : s.pc.toNat ≤ 0x1000) : t.Inv := by
  have ⟨hm, _, hl, ha, _, _⟩ := hs
  cases h with
  | store a ws => exact ⟨Memory.writeBytes_wf hm a ws, hs.2⟩
  | jump a => exact hs.setPc hr (by have := a.isLt; simp; omega)
  | skip c =>
    refine hs.setPc hr ?_
    cases c <;> simp [BitVec.toNat_add] <;> omega
  | ret l a hst =>
    rw [hst] at hl ha
    have hs' : (s.setStack l).Inv :=
      hs.setStack (by simp at hl; omega) fun b hb => ha b (List.mem_append_left _ hb)
    exact hs'.setPc hr (by have := ha a (by simp); omega)
  | call n hst =>
    have hs' : (s.setStack (s.stack ++ [s.pc])).Inv := by
      refine hs.setStack (by simp; omega) fun b hb => ?_
      rcases List.mem_append.mp hb with hb | hb
      · exact ha b hb
      · exact List.mem_singleton.mp hb ▸ hp
    exact hs'.setPc hr (by have := n.isLt; simp; omega)
  | wait x => exact hs.setRun rfl
  -- the invariant does not speak of the registers, I, the timers and the framebuffer
  | regs | index | delay | sound | clear | draw => exact hs

/-- Every instruction keeps the invariant, from a state in which the fetch has succeeded. -/
theorem exec_inv {i : Instr} {s t : State} (h : exec i s = .next t) (hs : s.Inv) (hr : s.run = .running)
    (hp : s.pc.toNat ≤ 0x1000) : t.Inv := by
  rcases exec_cases i s with ⟨k, hk, he⟩ | ⟨-, u, he, hu⟩ <;> cases he.symm.trans h
  · exact hs.takeFault (recordOf_agrees i s (faultOf_fatal hk))
  · exact hu.inv hs hr hp

/-- The pc after a fetch that succeeds (R111). -/
theorem State.fetched_pc_le {s : State} (h : s.pc.toNat + 1 < 4096) : s.fetched.pc.toNat ≤ 0x1000 := by
  simp [State.fetched, BitVec.toNat_add]
  omega

/-- A CPU step in Running keeps the invariant up to its end (R110). -/
theorem cpuRun_inv {s t : State} (h : cpuRun s = .next t) (hs : s.Inv) (hr : s.run = .running) : t.Inv := by
  have hfetched (hp : s.pc.toNat + 1 < 4096) : s.fetched.Inv :=
    hs.setPc hr (Nat.le_trans (State.fetched_pc_le hp) (by decide))
  rcases cpuRun_cases s with ⟨-, he⟩ | ⟨hp, -, he⟩ | ⟨hp, i, -, he⟩
  · cases he.symm.trans h; exact hs.fetchFault
  · cases he.symm.trans h; exact hfetched hp
  · exact exec_inv (he.symm.trans h) (hfetched hp) hr (State.fetched_pc_le hp)

/-- The invariant does not speak of the kept snapshot and the environment's inputs. -/
theorem State.Inv.endCpuStep {s : State} (h : s.Inv) : (endCpuStep s).Inv := by
  rw [endCpuStep_eq]
  cases s.run.isHalted <;> exact h

/-- The state after a reset meets the invariant (R35, R270). -/
theorem State.Inv.launched {s : State} (h : s.Inv) (l : Launch) : (launched l s).Inv := by
  obtain ⟨-, hc, -, -, -, -⟩ := h
  exact ⟨launchMemory_wf l, hc, Nat.zero_le _, nofun, show Config.entryPc.toNat ≤ 0x1002 by decide, nofun⟩

/-- Settles O18: each step of `step_cases` keeps the invariant. -/
theorem everyStepKeepsTheInvariant : Obligations.EveryStepKeepsTheInvariant := by
  intro s t hs h
  rcases step_cases h with ⟨l, -, -, rfl⟩ | ⟨-, -, rfl⟩ | ⟨-, -, rfl⟩ | ⟨x, -, -, rfl⟩ | ⟨hr, -, u, hu, rfl⟩
  · exact hs.launched l
  · exact hs
  · exact hs.setRun (r := .terminated) rfl
  · rcases waitResolve_cases x s with ⟨-, hw⟩ | ⟨k, -, hw⟩ <;> rw [hw]
    · exact hs.endCpuStep
    · exact (hs.setRun (r := .running) rfl).endCpuStep
  · exact (cpuRun_inv hu hs hr).endCpuStep

/-- Settles O17: memory lists nothing, the stack is empty, and the machine is Running at 0x200. -/
theorem invariantHoldsAtReset : Obligations.InvariantHoldsAtReset :=
  ⟨State.reset_mem_wf, rfl, Nat.zero_le _, nofun, by decide, nofun⟩

@[simp] theorem endCpuStep_cfg (s : State) : (endCpuStep s).cfg = s.cfg := by
  rw [endCpuStep_eq]
  cases s.run.isHalted <;> rfl

theorem cpuRun_cfg {s t : State} (h : cpuRun s = .next t) : t.cfg = s.cfg := by
  rcases cpuRun_cases s with ⟨-, he⟩ | ⟨-, -, he⟩ | ⟨-, i, -, he⟩
  · cases he.symm.trans h; rfl
  · cases he.symm.trans h; rfl
  · obtain ⟨u, hu, -, hc, -⟩ := exec_next i s.fetched
    cases (hu.symm.trans he.symm).trans h
    exact hc

/-- Settles O19: no part of a step writes the parameters. -/
theorem parametersAreFixedForARun : Obligations.ParametersAreFixedForARun := by
  intro s t h
  rcases step_cases h with ⟨l, -, -, rfl⟩ | ⟨-, -, rfl⟩ | ⟨-, -, rfl⟩ | ⟨x, -, -, rfl⟩ | ⟨-, -, u, hu, rfl⟩
  · rfl
  · rfl
  · rfl
  · rcases waitResolve_cases x s with ⟨-, hw⟩ | ⟨k, -, hw⟩ <;> simp [hw]
  · rw [endCpuStep_cfg, cpuRun_cfg hu]

end Sys2Proof.Machine
end

section
/-! PROOFS. Which components an instruction writes (O20), and that none reads the kept keypad snapshot or the sound timer
(O22, O23). -/

namespace Sys2Proof.Machine

/-- Settles O20: a fault changes the run state alone, and each effect changes its own component, for the instructions
that `Effect` lists it for. -/
theorem onlyTheListedInstructionsWrite : Obligations.OnlyTheListedInstructionsWrite := by
  intro i s t h
  rcases exec_cases i s with ⟨k, hk, he⟩ | ⟨-, u, he, hu⟩ <;> cases he.symm.trans h
  · simp [hk]
  cases hu with
  | store a ws hi => simp [hi]
  | regs w hw => simpa using hw
  | index a hi => simp [hi]
  | jump a hi => rcases hi with hi | hi <;> simp [hi]
  | skip c hi =>
    rw [Instr.Skips] at hi
    cases c <;> simp [State.skipIf_eq, hi]
  | ret l a hs hi => simp [hi]
  | call n hs hi => simp [hi]
  | delay b hi => simp [hi]
  | sound b hi => simp [hi]
  | clear hi => simp [hi]
  | draw f b hi =>
    obtain ⟨x, y, n, rfl⟩ := hi
    simp +contextual [State.readV_writeV, mayWriteV, vf]
  | wait x hi => simp [hi]

/-- The state with the kept keypad snapshot and the sound timer replaced by functions of themselves. -/
def State.mapHidden (g : Keypad → Keypad) (h : Byte → Byte) (s : State) : State :=
  { s with keysPrev := g s.keysPrev, st := h s.st }

/-- A change of the next state, on both branches of a check. -/
theorem mapNext_ite {c : Prop} [Decidable c] (f : State → State) (s t : State) :
    mapNext f (if c then .next s else .next t) = if c then .next (f s) else .next (f t) :=
  apply_ite (mapNext f) c (.next s) (.next t)

section
variable (g : Keypad → Keypad) (h : Byte → Byte) (s : State)

theorem State.writeResultAndFlag_mapHidden (x : Nibble) (res : Byte) (f : Bool) :
    (s.mapHidden g h).writeResultAndFlag x res f = (s.writeResultAndFlag x res f).mapHidden g h := by
  unfold State.writeResultAndFlag
  rw [show (s.mapHidden g h).cfg = s.cfg from rfl]
  cases s.cfg.vfOrder <;> rfl

theorem State.pop_mapHidden :
    (s.mapHidden g h).pop = s.pop.map fun p => (p.1, p.2.mapHidden g h) := by
  unfold State.pop
  rw [show (s.mapHidden g h).stack = s.stack from rfl]
  cases s.stack.getLast? <;> rfl

theorem State.push_mapHidden (a : Word) :
    (s.mapHidden g h).push a = (s.push a).map (State.mapHidden g h) := by
  unfold State.push
  rw [apply_ite (Option.map (State.mapHidden g h))]
  rfl

/-- No instruction reads the kept snapshot or the sound timer, and none but LD ST, Vx writes one of them: changing them
before it executes is changing them after it. -/
theorem exec_mapHidden {i : Instr} (hi : ∀ x, i ≠ .ldStVx x) :
    exec i (s.mapHidden g h) = mapNext (State.mapHidden g h) (exec i s) := by
  cases i
  case ldStVx x => exact absurd rfl (hi x)
  case ret =>
    simp only [exec, execRet, State.pop_mapHidden]
    cases s.pop <;> rfl
  case call =>
    simp only [exec, execCall, State.push_mapHidden, show (s.mapHidden g h).pc = s.pc from rfl]
    cases s.push s.pc <;> rfl
  case drw | ldB | ldMemVx | ldVxMem =>
    simp only [exec, execDrw, execLdB, execLdMemVx, execLdVxMem, mapNext_ite]
    rfl
  case addReg | sub | shr | subn | shl => exact congrArg _ (s.writeResultAndFlag_mapHidden g h ..)
  all_goals rfl

end

/-- Settles O22: no instruction reads or writes the kept snapshot; LD ST, Vx writes ST alone. -/
theorem noInstructionReadsTheKeptSnapshot : Obligations.NoInstructionReadsTheKeptSnapshot := by
  intro i s ks
  by_cases hi : ∃ x, i = .ldStVx x
  · obtain ⟨x, rfl⟩ := hi
    rfl
  · exact exec_mapHidden (fun _ => ks) id s fun x hx => hi ⟨x, hx⟩

/-- Settles O23: no instruction but LD ST, Vx reads or writes ST, and LD ST, Vx overwrites it. -/
theorem noInstructionReadsTheSoundTimer : Obligations.NoInstructionReadsTheSoundTimer :=
  ⟨fun _ s b hi => exec_mapHidden id (fun _ => b) s hi, fun _ _ _ => rfl⟩

end Sys2Proof.Machine
end

section
/-! PROOFS. The values after a reset: of the state right after reset (O16), and of the state that the host's reset leaves
(O14). -/

namespace Sys2Proof.Machine

/-- The font covers no byte from 80 on (R53). -/
theorem resetByte_eq_none {a : Nat} (h : 80 ≤ a) : resetByte a = none := by
  simpa [resetByte, fontBase] using List.getElem?_eq_none (l := fontLow ++ fontHigh) h

/-- A byte that nothing has written and the font does not cover is free (D4). -/
theorem Memory.byte_nil {a : Nat} (h : 80 ≤ a) : Memory.byte [] a = Config.memInit a := by
  simp [Memory.byte, Memory.known, Memory.listed, resetByte_eq_none h]

@[simp] theorem keyDown_noKeys (k : Nibble) : keyDown (Vector.replicate 16 false) k = false :=
  Vector.getElem_replicate ..

/-- Settles O16: the fields of `State.reset`, whose memory lists nothing. -/
theorem resetStateHasTheResetValues : Obligations.ResetStateHasTheResetValues :=
  ⟨rfl, rfl, rfl, fun _ => Vector.getElem_replicate .., rfl, rfl, rfl, Frame.pixel_blank, keyDown_noKeys, rfl,
    fun _ => Memory.byte_nil, by decide⟩

/-- A byte after cells are written in order: the last one at its address, else as it was (R270). -/
theorem Memory.byte_writeCells (m : Memory) (cells : List Host.Cell) {a : Nat} (ha : a < Config.memSize) :
    (m.writeCells cells).byte a = ((cells.reverse.find? fun c => c.1 = a).map Prod.snd).getD (m.byte a) := by
  induction cells using List.reverseRecOn with
  | nil => rfl
  | append_singleton cells c ih =>
    simp only [Memory.writeCells, List.foldl_append, List.foldl_cons, List.foldl_nil, List.reverse_append] at ih ⊢
    by_cases hc : c.1 = a
    · subst hc
      simp [Memory.byte_write _ ha]
    · rw [Memory.byte_write_other _ (Ne.symm hc), ih]
      simp [hc]

/-- The font's bytes after a reset: the program lies above them (R53, R270). -/
theorem byte_launchMemory_font (l : Launch) (k : Fin 80) : (launchMemory l).byte k.val = l.font.get k := by
  have hk := k.isLt
  unfold launchMemory
  rw [Memory.byte_writeBytes_outside _ _ _ (.inl (Nat.lt_trans hk (by decide))),
    Memory.byte_writeBytes _ (by simp [fontBase, Config.memSize])]
  simp [fontBase, Vector.get]

/-- The program's bytes after a reset (R258, R270). -/
theorem byte_launchMemory_program {l : Launch} (hl : l.program.length ≤ 3584) (k : Fin l.program.length) :
    (launchMemory l).byte (0x200 + k.val) = l.program.get k := by
  unfold launchMemory
  rw [Memory.byte_writeBytes _ (by simp only [Config.programBase, Config.memSize]; omega)]
  simp [Config.programBase]

/-- Every other byte after a reset is the launch content's (D4, R270). -/
theorem byte_launchMemory_launchByte (l : Launch) {a : Nat} (h1 : 80 ≤ a)
    (h2 : a < 0x200 ∨ 0x200 + l.program.length ≤ a) (ha : a < 4096) : (launchMemory l).byte a = launchByte l a := by
  rw [byte_launchMemory_under l h1 h2, Memory.byte_writeCells _ _ ha, Memory.byte_nil h1, launchByte]

/-- The host's reset is a step in every run state (R119, R270). -/
theorem step_reset {s : State} {l : Launch} (ht : s.env.turn = .reset l) (hl : l.program.length ≤ 3584) :
    step s = .next (launched l s).nextInputs := by
  rcases hostReset_cases l s with ⟨-, h⟩ | ⟨h, -⟩
  · simp only [step, ht, h, mapNext]
  · omega

theorem launchValue_zero {α : Type} {p : Params} (h : p.regInit = .zero) (zero any : α) :
    launchValue p zero any = zero := by simp [launchValue, h]

theorem launchValue_any {α : Type} {p : Params} (h : p.regInit = .any) (zero any : α) :
    launchValue p zero any = any := by simp [launchValue, h]

/-- Settles O14: the fields of `launched`, and the three parts of memory after a reset. -/
theorem hostResetStartsAnew : Obligations.HostResetStartsAnew := by
  intro s l ht hl
  refine ⟨_, step_reset ht hl, rfl, rfl, rfl, Frame.pixel_blank, keyDown_noKeys, rfl, fun hr => ?_, fun hr => ?_,
    byte_launchMemory_font l, byte_launchMemory_program hl, fun a => byte_launchMemory_launchByte l⟩
  · simp [launched, launchValue_zero hr, State.readV]
  · simp [launched, launchValue_any hr]

end Sys2Proof.Machine
end

section
/-! PROOFS. A CPU step in Running that decodes an instruction, or none; the bytes that FX33 and FX55 leave; and the step
after one of them (O44). -/

namespace Sys2Proof.Machine

/-- The CPU's turn in Running is one fetch, decode and execute, and the end of the step (R110). -/
theorem step_cpuRun {s t : State} (ht : s.env.turn = .cpu) (hr : s.run = .running) (h : cpuRun s = .next t) :
    step s = .next (endCpuStep t) := by
  simp only [step, ht, hr, h, mapNext]

/-- A fetch that succeeds runs the instruction that its word decodes to (R111). -/
theorem cpuRun_of_known {s : State} {i : Instr} (hp : s.pc.toNat + 1 < 4096) (hd : decode s.fetchedWord = .known i) :
    cpuRun s = exec i s.fetched := by
  rcases cpuRun_cases s with ⟨hf, -⟩ | ⟨-, hu, -⟩ | ⟨-, j, hj, hc⟩
  · omega
  · cases hu.symm.trans hd
  · cases hj.symm.trans hd
    exact hc

/-- A fetch that succeeds with an unknown word only advances the pc (R118). -/
theorem cpuRun_of_unknown {s : State} {w : Word} (hp : s.pc.toNat + 1 < 4096)
    (hd : decode s.fetchedWord = .unknown w) : cpuRun s = .next s.fetched := by
  rcases cpuRun_cases s with ⟨hf, -⟩ | ⟨-, -, hc⟩ | ⟨-, j, hj, -⟩
  · omega
  · exact hc
  · cases hj.symm.trans hd

/-- The whole state after a CPU step that runs an instruction, which leaves the step's inputs as they were (R110). -/
theorem step_of_known {s t : State} {i : Instr} (ht : s.env.turn = .cpu) (hr : s.run = .running)
    (hp : s.pc.toNat + 1 < 4096) (hd : decode s.fetchedWord = .known i) (he : exec i s.fetched = .next t) :
    step s = .next { t with
      keysPrev := if t.run.isHalted = true then t.keysPrev else s.env.keys
      script := s.script.tail
      draws := s.draws + 1 } := by
  obtain ⟨u, hu, hctx⟩ := exec_next i s.fetched
  cases hu.symm.trans he
  have henv : t.env = s.env := hctx.env
  obtain ⟨-, -, hscript, hdraws⟩ : SameContext s t := hctx
  rw [step_cpuRun ht hr ((cpuRun_of_known hp hd).trans he), endCpuStep_eq, henv, ← hscript, ← hdraws]
  cases t.run.isHalted <;> rfl

/-- The whole state after a CPU step on an unknown opcode (R110, R118). -/
theorem step_of_unknown {s : State} {w : Word} (ht : s.env.turn = .cpu) (hr : s.run = .running)
    (hp : s.pc.toNat + 1 < 4096) (hd : decode s.fetchedWord = .unknown w) :
    step s = .next { s with
      pc := s.pc + 2
      keysPrev := s.env.keys
      script := s.script.tail
      draws := s.draws + 1 } := by
  rw [step_cpuRun ht hr (cpuRun_of_unknown hp hd), endCpuStep_eq, show s.fetched.run = .running from hr]
  rfl

/-- FX33 inside memory stores the three digits from I on (R183). -/
theorem exec_ldB_inside {s : State} (x : Nibble) (h : s.i.toNat + 3 ≤ 4096) :
    exec (.ldB x) s = .next (s.setMem (s.mem.writeBytes s.base (bcdDigits (s.readV x)))) :=
  if_pos ((inMemory_iff ..).mpr (.inr h))

/-- FX55 inside memory stores V0 to Vx from I on (R184). -/
theorem exec_ldMemVx_inside {s : State} (x : Nibble) (h : s.i.toNat + (x.toNat + 1) ≤ 4096) :
    exec (.ldMemVx x) s = .next (s.setMem (s.mem.writeBytes s.base (s.regsUpTo x))) :=
  if_pos ((inMemory_iff ..).mpr (.inr h))

/-- The bytes after FX33 inside memory are those of `byteAfterStore` (R183). -/
theorem byteAt_bcdDigits {s : State} (x : Nibble) (h : s.i.toNat + 3 ≤ 4096) (a : Nat) :
    (s.setMem (s.mem.writeBytes s.base (bcdDigits (s.readV x)))).byteAt a = byteAfterStore (.ldB x) s a := by
  rw [State.byteAt_store s (ws := bcdDigits (s.readV x)) h, byteAfterStore]
  by_cases hlow : s.i.toNat ≤ a
  · obtain ⟨k, rfl⟩ := Nat.exists_eq_add_of_le hlow
    -- the digit at I + k, for k = 0, 1, 2; none above
    match k with
    | 0 | 1 | 2 => simp [bcdDigits]
    | k + 3 => simp [bcdDigits]
  · rw [if_neg hlow, if_neg (by omega), if_neg (by omega), if_neg (by omega)]

/-- The bytes after FX55 inside memory are those of `byteAfterStore` (R184). -/
theorem byteAt_regsUpTo {s : State} (x : Nibble) (h : s.i.toNat + (x.toNat + 1) ≤ 4096) (a : Nat) :
    (s.setMem (s.mem.writeBytes s.base (s.regsUpTo x))).byteAt a = byteAfterStore (.ldMemVx x) s a := by
  rw [State.byteAt_store s (by rwa [State.regsUpTo_length]), State.regsUpTo_getElem?, byteAfterStore]
  by_cases hlow : s.i.toNat ≤ a
  · by_cases hx : a - s.i.toNat ≤ x.toNat
    · rw [if_pos hlow, if_pos hx, if_pos ⟨hlow, by omega⟩, Option.getD_some]
    · rw [if_pos hlow, if_neg hx, if_neg (by omega), Option.getD_none]
  · rw [if_neg hlow, if_neg (by omega)]

/-- FX33 or FX55 without a fault changes memory alone, to the bytes of `byteAfterStore` (R183, R184). -/
theorem exec_store {store : Instr} (s : State) (hi : (∃ x, store = .ldB x) ∨ ∃ x, store = .ldMemVx x)
    (hf : faultOf store s = none) :
    ∃ m, exec store s = .next (s.setMem m) ∧ ∀ a, (s.setMem m).byteAt a = byteAfterStore store s a := by
  rcases hi with ⟨x, rfl⟩ | ⟨x, rfl⟩ <;> simp only [faultOf, ite_eq_right_iff, reduceCtorEq, imp_false] at hf
  · exact ⟨_, exec_ldB_inside x (by omega), byteAt_bcdDigits x (by omega)⟩
  · exact ⟨_, exec_ldMemVx_inside x (by omega), byteAt_regsUpTo x (by omega)⟩

/-- After a CPU step that runs FX33 or FX55 without a fault the machine is Running at the instruction right after it,
over the bytes that the store left (R66, R111). -/
theorem step_store {s t : State} {store : Instr} (hi : (∃ x, store = .ldB x) ∨ ∃ x, store = .ldMemVx x)
    (ht : s.env.turn = .cpu) (hr : s.run = .running) (hp : s.pc.toNat + 1 < 4096)
    (hd : decode s.fetchedWord = .known store) (hf : faultOf store s = none) (hstep : step s = .next t) :
    t.run = .running ∧ t.pc = s.pc + 2 ∧ ∀ a, t.byteAt a = byteAfterStore store s a := by
  -- neither the fault condition nor the stored bytes depend on the pc, which the fetch has advanced
  have hpc : faultOf store s.fetched = faultOf store s ∧ byteAfterStore store s.fetched = byteAfterStore store s := by
    rcases hi with ⟨x, rfl⟩ | ⟨x, rfl⟩ <;> exact ⟨rfl, rfl⟩
  obtain ⟨m, he, hm⟩ := exec_store s.fetched hi (hpc.1.trans hf)
  cases (step_of_known ht hr hp hd he).symm.trans hstep
  exact ⟨hr, rfl, hpc.2 ▸ hm⟩

/-- Settles O44: after the store the machine is Running at the next word, whose two bytes are the stored ones
(`step_store`), and the second step fetches that word. -/
theorem storeIsSeenByTheNextFetch : Obligations.StoreIsSeenByTheNextFetch := by
  intro s t store hi ht hr hp hd hf hstep ht'
  obtain ⟨hr', hpc, hbytes⟩ := step_store hi ht hr (by omega) hd hf hstep
  have hpcNat : t.pc.toNat = s.pc.toNat + 2 := by
    rw [hpc]
    bv_omega
  have hpc4 : t.pc + 2 = s.pc + 4 := by
    rw [hpc, BitVec.add_assoc]
    rfl
  have hword : byteAfterStore store s (s.pc.toNat + 2) ++ byteAfterStore store s (s.pc.toNat + 3) = t.fetchedWord := by
    rw [State.fetchedWord, hbytes, hbytes, hpcNat]
    rfl
  have hp' : t.pc.toNat + 1 < 4096 := by omega
  rw [hword, ← hpc4]
  cases hd' : decode t.fetchedWord with
  | known i =>
    obtain ⟨u, hu, -⟩ := exec_next i t.fetched
    exact ⟨u, hu, step_of_known ht' hr' hp' hd' hu⟩
  | unknown w => exact step_of_unknown ht' hr' hp' hd'

end Sys2Proof.Machine
end

section
/-! PROOFS. The encoding (O1 to O4): a word decodes to an instruction exactly where it is that instruction's word, and
the words of the instructions are exactly those that meet a row of the opcode table. -/

namespace Sys2Proof

/-- The word of any instruction is read back (R81 to R84). -/
@[simp] theorem decode_encode (i : Instr) : decode (encode i) = .known i := by
  cases i
  case cls | ret => rfl
  -- the top nibble selects the row (R83)
  case jp | call | ldI | jpV0 | seImm | sneImm | ldImm | addImm | rnd | drw => simp [encode, decode]
  -- and then the secondary nibble
  case seReg | sneReg => simp [encode, decode]
  case ldReg | orReg | andReg | xorReg | addReg | sub | shr | subn | shl => simp [encode, decode, decodeAlu]
  -- or the secondary byte
  case skp | sknp => simp [encode, decode, decodeKey]
  case ldVxDt | ldVxK | ldDtVx | ldStVx | addI | ldF | ldB | ldMemVx | ldVxMem => simp [encode, decode, decodeMisc]

/-- Settles O1: `decode_encode`, and the two bytes of a word make up the word again. -/
theorem decodeOfEncodeIsIdentity : Obligations.DecodeOfEncodeIsIdentity := fun i _ =>
  ⟨decode_encode i, by rw [decodeBytes, wordOfBytes_bytes, decode_encode]⟩

section
variable {op : Word} {a n : Nibble} {b : Byte}

/-! A word whose fixed fields are known is built from them and its operands (R81, R83). -/

theorem wordNNN_of_family (hf : opFamily op = a) : wordNNN a (opNNN op) = op := by rw [← hf, wordNNN_fields]

theorem wordXNN_of_family (hf : opFamily op = a) : wordXNN a (opX op) (opNN op) = op := by rw [← hf, wordXNN_fields]

theorem wordXYN_of_family (hf : opFamily op = a) : wordXYN a (opX op) (opY op) (opN op) = op := by
  rw [← hf, wordXYN_fields]

theorem wordXYN_of_nibble (h : opFamily op = a ∧ opN op = n) : wordXYN a (opX op) (opY op) n = op := by
  rw [← h.2, wordXYN_of_family h.1]

theorem wordXNN_of_byte (h : opFamily op = a ∧ opNN op = b) : wordXNN a (opX op) b = op := by
  rw [← h.2, wordXNN_of_family h.1]

variable {i : Instr}

/-- Family 8: the low nibble has selected the instruction, and x and y are read back (R83). -/
theorem encode_of_decodeAlu (hf : opFamily op = 0x8#4) (h : decodeAlu op = .known i) : encode i = op := by
  unfold decodeAlu at h
  split at h <;> cases h
  all_goals exact wordXYN_of_nibble ⟨hf, ‹_›⟩

/-- Family E: the low byte has selected the instruction, and x is read back (R83). -/
theorem encode_of_decodeKey (hf : opFamily op = 0xE#4) (h : decodeKey op = .known i) : encode i = op := by
  unfold decodeKey at h
  split at h <;> cases h
  all_goals exact wordXNN_of_byte ⟨hf, ‹_›⟩

/-- Family F: the low byte has selected the instruction, and x is read back (R83). -/
theorem encode_of_decodeMisc (hf : opFamily op = 0xF#4) (h : decodeMisc op = .known i) : encode i = op := by
  unfold decodeMisc at h
  split at h <;> cases h
  all_goals exact wordXNN_of_byte ⟨hf, ‹_›⟩

end

/-- Settles O2: each branch of `decode` that answers an instruction has tested that instruction's fixed fields. -/
theorem encodeOfDecodeIsIdentity : Obligations.EncodeOfDecodeIsIdentity := by
  intro op i h
  unfold decode at h
  split at h
  -- family 0: the two whole words CLS and RET
  case h_1 =>
    split at h
    · cases h; exact (‹op = _›).symm
    · split at h <;> cases h
      exact (‹op = _›).symm
  -- families 5 and 9: N is 0
  case h_6 | h_10 =>
    split at h <;> cases h
    exact wordXYN_of_nibble ⟨‹_›, ‹_›⟩
  -- families 8, E and F: a decoder of their own
  case h_9 hf => exact encode_of_decodeAlu hf h
  case h_15 hf => exact encode_of_decodeKey hf h
  case h_16 => exact encode_of_decodeMisc (by apply nibble_eq_F <;> assumption) h
  -- family D; families 1, 2, A and B; families 3, 4, 6, 7 and C: one instruction each
  case h_14 hf => cases h; exact wordXYN_of_family hf
  case h_2 hf | h_3 hf | h_11 hf | h_12 hf => cases h; exact wordNNN_of_family hf
  case h_4 hf | h_5 hf | h_7 hf | h_8 hf | h_13 hf => cases h; exact wordXNN_of_family hf

open Laws.TableRow in
/-- A word that meets a row's mask and fixed bits is the word of an instruction (R84, R87). -/
theorem exists_encode_of_meets_row {op : Word} (i : Instr) (h : op &&& i.row.mask = i.row.bits) :
    ∃ j, encode j = op := by
  cases i with
  | cls => exact ⟨.cls, by rw [← BitVec.and_allOnes (x := op)]; exact h.symm⟩
  | ret => exact ⟨.ret, by rw [← BitVec.and_allOnes (x := op)]; exact h.symm⟩
  | jp => exact ⟨.jp _, wordNNN_of_family ((family_iff ..).mp h)⟩
  | call => exact ⟨.call _, wordNNN_of_family ((family_iff ..).mp h)⟩
  | seImm => exact ⟨.seImm _ _, wordXNN_of_family ((family_iff ..).mp h)⟩
  | sneImm => exact ⟨.sneImm _ _, wordXNN_of_family ((family_iff ..).mp h)⟩
  | seReg => exact ⟨.seReg _ _, wordXYN_of_nibble ((nibble_iff ..).mp h)⟩
  | ldImm => exact ⟨.ldImm _ _, wordXNN_of_family ((family_iff ..).mp h)⟩
  | addImm => exact ⟨.addImm _ _, wordXNN_of_family ((family_iff ..).mp h)⟩
  | ldReg => exact ⟨.ldReg _ _, wordXYN_of_nibble ((nibble_iff ..).mp h)⟩
  | orReg => exact ⟨.orReg _ _, wordXYN_of_nibble ((nibble_iff ..).mp h)⟩
  | andReg => exact ⟨.andReg _ _, wordXYN_of_nibble ((nibble_iff ..).mp h)⟩
  | xorReg => exact ⟨.xorReg _ _, wordXYN_of_nibble ((nibble_iff ..).mp h)⟩
  | addReg => exact ⟨.addReg _ _, wordXYN_of_nibble ((nibble_iff ..).mp h)⟩
  | sub => exact ⟨.sub _ _, wordXYN_of_nibble ((nibble_iff ..).mp h)⟩
  | shr => exact ⟨.shr _ _, wordXYN_of_nibble ((nibble_iff ..).mp h)⟩
  | subn => exact ⟨.subn _ _, wordXYN_of_nibble ((nibble_iff ..).mp h)⟩
  | shl => exact ⟨.shl _ _, wordXYN_of_nibble ((nibble_iff ..).mp h)⟩
  | sneReg => exact ⟨.sneReg _ _, wordXYN_of_nibble ((nibble_iff ..).mp h)⟩
  | ldI => exact ⟨.ldI _, wordNNN_of_family ((family_iff ..).mp h)⟩
  | jpV0 => exact ⟨.jpV0 _, wordNNN_of_family ((family_iff ..).mp h)⟩
  | rnd => exact ⟨.rnd _ _, wordXNN_of_family ((family_iff ..).mp h)⟩
  | drw => exact ⟨.drw _ _ _, wordXYN_of_family ((family_iff ..).mp h)⟩
  | skp => exact ⟨.skp _, wordXNN_of_byte ((byte_iff ..).mp h)⟩
  | sknp => exact ⟨.sknp _, wordXNN_of_byte ((byte_iff ..).mp h)⟩
  | ldVxDt => exact ⟨.ldVxDt _, wordXNN_of_byte ((byte_iff ..).mp h)⟩
  | ldVxK => exact ⟨.ldVxK _, wordXNN_of_byte ((byte_iff ..).mp h)⟩
  | ldDtVx => exact ⟨.ldDtVx _, wordXNN_of_byte ((byte_iff ..).mp h)⟩
  | ldStVx => exact ⟨.ldStVx _, wordXNN_of_byte ((byte_iff ..).mp h)⟩
  | addI => exact ⟨.addI _, wordXNN_of_byte ((byte_iff ..).mp h)⟩
  | ldF => exact ⟨.ldF _, wordXNN_of_byte ((byte_iff ..).mp h)⟩
  | ldB => exact ⟨.ldB _, wordXNN_of_byte ((byte_iff ..).mp h)⟩
  | ldMemVx => exact ⟨.ldMemVx _, wordXNN_of_byte ((byte_iff ..).mp h)⟩
  | ldVxMem => exact ⟨.ldVxMem _, wordXNN_of_byte ((byte_iff ..).mp h)⟩

open Laws in
/-- The word of every instruction meets the instruction's own row, one of the 34 (R84). -/
theorem tableRow_statement : ∀ i : Instr, TableRow.Statement i
  | .cls => TableRow.cls
  | .ret => TableRow.ret
  | .jp nnn => TableRow.jp nnn
  | .call nnn => TableRow.call nnn
  | .seImm x nn => TableRow.seImm x nn
  | .sneImm x nn => TableRow.sneImm x nn
  | .seReg x y => TableRow.seReg x y
  | .ldImm x nn => TableRow.ldImm x nn
  | .addImm x nn => TableRow.addImm x nn
  | .ldReg x y => TableRow.ldReg x y
  | .orReg x y => TableRow.orReg x y
  | .andReg x y => TableRow.andReg x y
  | .xorReg x y => TableRow.xorReg x y
  | .addReg x y => TableRow.addReg x y
  | .sub x y => TableRow.sub x y
  | .shr x y => TableRow.shr x y
  | .subn x y => TableRow.subn x y
  | .shl x y => TableRow.shl x y
  | .sneReg x y => TableRow.sneReg x y
  | .ldI nnn => TableRow.ldI nnn
  | .jpV0 nnn => TableRow.jpV0 nnn
  | .rnd x nn => TableRow.rnd x nn
  | .drw x y n => TableRow.drw x y n
  | .skp x => TableRow.skp x
  | .sknp x => TableRow.sknp x
  | .ldVxDt x => TableRow.ldVxDt x
  | .ldVxK x => TableRow.ldVxK x
  | .ldDtVx x => TableRow.ldDtVx x
  | .ldStVx x => TableRow.ldStVx x
  | .addI x => TableRow.addI x
  | .ldF x => TableRow.ldF x
  | .ldB x => TableRow.ldB x
  | .ldMemVx x => TableRow.ldMemVx x
  | .ldVxMem x => TableRow.ldVxMem x

/-- A word that decodes to no instruction is named as it is (R85). -/
theorem eq_of_decode_unknown {op w : Word} (h : decode op = .unknown w) : w = op := by
  unfold decode decodeAlu decodeKey decodeMisc at h
  repeat' split at h
  all_goals cases h
  all_goals rfl

/-- Two rows whose fixed bits agree where both masks look are one row (R87). -/
theorem opcodeRows_disjoint :
    ∀ r ∈ opcodeRows, ∀ q ∈ opcodeRows, r.bits &&& q.mask = q.bits &&& r.mask → r = q := by decide

/-- A word meets at most one row (R87). -/
theorem row_unique {op : Word} {r q : OpcodeRow} (hr : r ∈ opcodeRows) (hq : q ∈ opcodeRows)
    (h : op &&& r.mask = r.bits) (h' : op &&& q.mask = q.bits) : r = q := by
  refine opcodeRows_disjoint r hr q hq ?_
  rw [← h, ← h', BitVec.and_assoc, BitVec.and_comm r.mask, ← BitVec.and_assoc]

/-- Settles O3: a word that decodes is the word of its instruction, which meets that instruction's row and, the rows
being disjoint, no other; and a word that meets a row is some instruction's word, so it decodes. -/
theorem decodingFollowsTheOpcodeTable : Obligations.DecodingFollowsTheOpcodeTable := by
  intro op
  split
  next i hd =>
    obtain ⟨hrow, hmeets⟩ := tableRow_statement i
    rw [encodeOfDecodeIsIdentity op i hd] at hmeets
    exact ⟨hrow, fun r hr => ⟨fun h => row_unique hr hrow h hmeets, fun h => h ▸ hmeets⟩⟩
  next w hd =>
    refine ⟨eq_of_decode_unknown hd, fun r hr h => ?_⟩
    obtain ⟨i, -, rfl⟩ := List.mem_map.mp hr
    obtain ⟨j, rfl⟩ := exists_encode_of_meets_row i h
    cases (decode_encode j).symm.trans hd

/-- Settles O4: the first six words are the words of their instructions; in 5121 the low nibble is not 0. -/
theorem patternWordsDecode : Obligations.PatternWordsDecode :=
  ⟨decode_encode .ret, decode_encode (.call 0x310), decode_encode (.shr 1 2), decode_encode (.drw 1 2 5),
    decode_encode (.sknp 5), decode_encode (.ldB 0xA), rfl⟩

end Sys2Proof
end

section
/-! PROOFS. The execution cycle (O5 to O8): a CPU step in Running by what it fetches, and the run states in which only
the host's reset is a step. -/

namespace Sys2Proof.Machine

/-- Settles O5: the word at the pc is its two bytes, high byte first, so this is `step_of_known`. -/
theorem stepRunsTheDecodedInstruction : Obligations.StepRunsTheDecodedInstruction :=
  fun _ _ _ ht hr hp hd he => step_of_known ht hr hp hd he

/-- Settles O6: the word at the pc is its two bytes, high byte first, so this is `step_of_unknown`. -/
theorem unknownOpcodeOnlyAdvancesThePc : Obligations.UnknownOpcodeOnlyAdvancesThePc :=
  fun _ _ ht hr hp hd => step_of_unknown ht hr hp hd

/-- A fetch whose second byte lies beyond memory faults, and nothing is decoded (R112). -/
theorem cpuRun_of_fetchFails {s : State} (hp : 4096 ≤ s.pc.toNat + 1) : cpuRun s = .next s.fetchFault := by
  rcases cpuRun_cases s with ⟨-, hc⟩ | ⟨hin, -⟩ | ⟨hin, -⟩
  · exact hc
  · omega
  · omega

/-- A CPU step that halts the machine keeps no keypad snapshot (R110, D12). -/
theorem endCpuStep_of_halted {s : State} {r : FaultRecord} (hr : s.run = .halted r) : endCpuStep s = s.nextInputs := by
  simp only [endCpuStep, hr]

/-- Settles O7: the fetch faults, and the fault's record is the whole effect of a step that halts. -/
theorem fetchBeyondMemoryHalts : Obligations.FetchBeyondMemoryHalts := by
  intro s ht hr hp
  rw [step_cpuRun ht hr (cpuRun_of_fetchFails hp), endCpuStep_of_halted (s := s.fetchFault) rfl]
  rfl

/-- In Halted every turn but the host's reset stops with the fault's record (R119, R248). -/
theorem step_of_halted {s : State} {r : FaultRecord} (ht : ∀ l, s.env.turn ≠ .reset l) (hr : s.run = .halted r) :
    step s = .fault (.halted r) := by
  cases hturn : s.env.turn with
  | reset l => exact absurd hturn (ht l)
  | cpu | tick | quit => simp only [step, hturn, hr]

/-- In Terminated every turn but the host's reset is refused (R119, R253). -/
theorem step_of_terminated {s : State} (ht : ∀ l, s.env.turn ≠ .reset l) (hr : s.run = .terminated) :
    step s = .refused .terminated := by
  cases hturn : s.env.turn with
  | reset l => exact absurd hturn (ht l)
  | cpu | tick | quit => simp only [step, hturn, hr]

/-- Settles O8: the run state alone decides the outcome of each turn that is not a reset. -/
theorem haltedAndTerminatedTakeNoStep : Obligations.HaltedAndTerminatedTakeNoStep :=
  fun _ ht => ⟨fun _ hr => step_of_halted ht hr, fun hr => step_of_terminated ht hr⟩

end Sys2Proof.Machine
end

section
/-! PROOFS. Control flow (O24 to O30): what the updates of the pc, the stack and the run state leave unchanged; RET and
CALL by the state of the stack; the jumps and the skips. -/

namespace Sys2Proof.Machine

section
variable {parts : List Part} {s t : State}

theorem Unchanged.refl (parts : List Part) (s : State) : Unchanged parts s s := by simp [Unchanged]

/-! An update of a listed component changes no other one. -/

theorem Unchanged.setPc (h : Unchanged parts s t) (hp : .pc ∈ parts) (a : Word) : Unchanged parts s (t.setPc a) := by
  simpa [Unchanged, hp] using h

theorem Unchanged.setStack (h : Unchanged parts s t) (hp : .stack ∈ parts) (l : List Word) :
    Unchanged parts s (t.setStack l) := by
  simpa [Unchanged, hp] using h

theorem Unchanged.setRun (h : Unchanged parts s t) (hp : .run ∈ parts) (r : Run) : Unchanged parts s (t.setRun r) := by
  simpa [Unchanged, hp] using h

end

/-- A jump changes the pc alone (R116). -/
theorem unchanged_setPc (s : State) (a : Word) : Unchanged [.pc] s (s.setPc a) :=
  (Unchanged.refl _ s).setPc (by simp) a

/-- A jump that pushes or pops changes the pc and the stack alone (R130, R132). -/
theorem unchanged_setStack_setPc (s : State) (l : List Word) (a : Word) :
    Unchanged [.pc, .stack] s ((s.setStack l).setPc a) :=
  ((Unchanged.refl _ s).setStack (by simp) l).setPc (by simp) a

/-- A fault changes the run state alone (R247). -/
theorem unchanged_raise (s : State) (k : ErrorKind) (i : Instr) (addr : Option Word) :
    Unchanged [.run] s (s.raise k i addr) :=
  (Unchanged.refl _ s).setRun (by simp) _

section
variable {s : State}

/-- RET takes the entry most recently pushed off the stack and into the pc (R130). -/
theorem exec_ret_of_append {l : List Word} {a : Word} (h : s.stack = l ++ [a]) :
    exec .ret s = .next ((s.setStack l).setPc a) := by
  have hpop : s.pop = some (a, s.setStack l) := by simp [State.pop, h]
  simp only [exec, execRet, hpop]

/-- RET on an empty stack raises StackUnderflow (R25). -/
theorem exec_ret_of_nil (h : s.stack = []) : exec .ret s = .next (s.raise .stackUnderflow .ret none) := by
  have hpop : s.pop = none := by simp [State.pop, h]
  simp only [exec, execRet, hpop]

/-- CALL on a stack with room pushes the address of the next instruction and jumps (R132). -/
theorem exec_call_of_room (nnn : Addr) (h : s.stack.length ≠ s.cfg.stackDepth) :
    exec (.call nnn) s = .next ((s.setStack (s.stack ++ [s.pc])).setPc (nnn.setWidth 16)) := by
  have hpush : s.push s.pc = some (s.setStack (s.stack ++ [s.pc])) := if_neg h
  simp only [exec, execCall, hpush]

/-- CALL on a stack at capacity raises StackOverflow (R25). -/
theorem exec_call_of_full (nnn : Addr) (h : s.stack.length = s.cfg.stackDepth) :
    exec (.call nnn) s = .next (s.raise .stackOverflow (.call nnn) none) := by
  have hpush : s.push s.pc = none := if_pos h
  simp only [exec, execCall, hpush]

end

/-- An address is the same number as a pc. -/
theorem toNat_setWidth_addr (a : Addr) : (a.setWidth 16).toNat = a.toNat := BitVec.toNat_setWidth_of_le (by decide)

/-- Settles O24: the two states of the stack are `exec_ret_of_append` and `exec_ret_of_nil`. -/
theorem returnPopsIntoThePc : Obligations.ReturnPopsIntoThePc :=
  ⟨decode_encode .ret,
    fun s l a h => ⟨_, exec_ret_of_append h, rfl, rfl, unchanged_setStack_setPc s l a⟩,
    fun _ h => ⟨_, exec_ret_of_nil h, unchanged_raise .., rfl⟩⟩

/-- Settles O25: the new pc is NNN widened to 16 bits. -/
theorem jumpSetsThePc : Obligations.JumpSetsThePc := fun s nnn =>
  ⟨decode_encode (.jp nnn), _, rfl, toNat_setWidth_addr nnn, unchanged_setPc s _⟩

/-- Settles O26: the two states of the stack are `exec_call_of_room` and `exec_call_of_full`. -/
theorem callPushesAndJumps : Obligations.CallPushesAndJumps := fun _ nnn =>
  ⟨decode_encode (.call nnn),
    fun h => ⟨_, exec_call_of_room nnn h, toNat_setWidth_addr nnn, rfl, unchanged_setStack_setPc ..⟩,
    fun h => ⟨_, exec_call_of_full nnn h, unchanged_raise .., rfl⟩⟩

/-- Settles O27: the call leaves its return address at the end of the stack, where RET finds it. -/
theorem callThenReturnResumes : Obligations.CallThenReturnResumes := fun _ nnn _ h =>
  ⟨_, exec_call_of_room nnn h, exec_ret_of_append rfl⟩

/-- A skip taken where `p` holds (R133, R135). -/
theorem skipIf_decide_pc (s : State) (p : Prop) [Decidable p] :
    (s.skipIf (decide p)).pc = if p then s.pc + 2 else s.pc := by
  simp only [State.skipIf_pc, decide_eq_true_eq]

/-- A skip taken where `p` fails (R134, R136). -/
theorem skipIf_decide_not_pc (s : State) (p : Prop) [Decidable p] :
    (s.skipIf (decide ¬p)).pc = if p then s.pc else s.pc + 2 := by
  simp only [skipIf_decide_pc, ite_not]

/-- Settles O28: both instructions skip on a comparison of Vx with the byte of the word. -/
theorem skipsComparingWithAByte : Obligations.SkipsComparingWithAByte := fun s x nn =>
  ⟨⟨decode_encode (.seImm x nn), _, rfl, skipIf_decide_pc .., unchanged_setPc s _⟩,
    ⟨decode_encode (.sneImm x nn), _, rfl, skipIf_decide_not_pc .., unchanged_setPc s _⟩⟩

/-- Families 5 and 9 have no instruction with a low nibble other than 0 (R85, D9). -/
theorem decode_wordXYN_unknown {n3 n : Nibble} (x y : Nibble) (h3 : n3 = 0x5#4 ∨ n3 = 0x9#4) (hn : n ≠ 0x0#4) :
    decode (wordXYN n3 x y n) = .unknown (wordXYN n3 x y n) := by
  rcases h3 with rfl | rfl <;> simp [decode, hn]

/-- Settles O29: both instructions skip on a comparison of Vx with Vy; the other words of their families decode to
none. -/
theorem skipsComparingRegisters : Obligations.SkipsComparingRegisters := fun s x y _ =>
  ⟨⟨decode_encode (.seReg x y), _, rfl, skipIf_decide_pc .., unchanged_setPc s _⟩,
    ⟨decode_encode (.sneReg x y), _, rfl, skipIf_decide_not_pc .., unchanged_setPc s _⟩,
    fun hn => ⟨decode_wordXYN_unknown x y (.inl rfl) hn, decode_wordXYN_unknown x y (.inr rfl) hn⟩⟩

/-- Settles O30: the new pc is the sum in 12 bits, which is the sum modulo 0x1000. -/
theorem jumpWithOffsetAddsV0 : Obligations.JumpWithOffsetAddsV0 := fun s nnn =>
  ⟨decode_encode (.jpV0 nnn), _, rfl, (toNat_setWidth_addr _).trans (BitVec.toNat_ofNat ..), unchanged_setPc s _⟩

end Sys2Proof.Machine
end

section
/-! PROOFS. The ALU (O31 to O37): what a register write and `WriteResultAndFlag` leave behind, and each result and flag
as a number. -/

namespace Sys2Proof.Machine

/-- An instruction that writes registers changes the register file alone (R114). -/
theorem unchanged_setRegs (s : State) (w : Vector Byte 16) : Unchanged [.v] s (s.setRegs w) := by simp [Unchanged]

theorem unchanged_writeV (s : State) (x : Nibble) (b : Byte) : Unchanged [.v] s (s.writeV x b) := unchanged_setRegs ..

section
variable {s : State} {x : Nibble} {res : Byte} {f : Bool}

theorem unchanged_writeResultAndFlag : Unchanged [.v] s (s.writeResultAndFlag x res f) := by
  obtain ⟨w, hw⟩ := s.writeResultAndFlag_eq x res f
  exact hw ▸ unchanged_setRegs s w

/-- Vx holds the result, unless it is VF and the flag is written last (R117). -/
theorem readV_writeResultAndFlag_result (h : x ≠ 0xF ∨ s.cfg.vfOrder = .resultLast) :
    (s.writeResultAndFlag x res f).readV x = res :=
  (State.readV_writeResultAndFlag ..).trans (if_pos ⟨rfl, fun hx => h.resolve_left (not_not_intro hx)⟩)

/-- VF holds the flag, unless it is Vx and the result is written last (R117). -/
theorem readV_writeResultAndFlag_flag (h : x ≠ 0xF ∨ s.cfg.vfOrder = .flagLast) :
    (s.writeResultAndFlag x res f).readV 0xF = flagByte f := by
  refine (State.readV_writeResultAndFlag ..).trans ((if_neg ?_).trans (if_pos rfl))
  rintro ⟨rfl, hlast⟩
  rcases h with h | h
  · exact h rfl
  · cases h.symm.trans (hlast rfl)

theorem readV_writeResultAndFlag_other {r : Nibble} (hx : r ≠ x) (hf : r ≠ 0xF) :
    (s.writeResultAndFlag x res f).readV r = s.readV r :=
  (State.readV_writeResultAndFlag ..).trans ((if_neg fun h => hx h.1).trans (if_neg hf))

/-- What an answer by `WriteResultAndFlag` says of Vx, of VF and of all else: the rule of 8XY4 to 8XY7 and 8XYE (R117).
`view` reads VF as a byte or as a number. -/
theorem next_writeResultAndFlag {α : Type} (view : Byte → α) {n : Nat} {c : α} (hres : res.toNat = n)
    (hflag : view (flagByte f) = c) :
    ∃ t, (.next (s.writeResultAndFlag x res f) : Host.Outcome State Fault Refusal) = .next t ∧
      ((x ≠ 0xF ∨ s.cfg.vfOrder = .resultLast) → (t.readV x).toNat = n) ∧
      ((x ≠ 0xF ∨ s.cfg.vfOrder = .flagLast) → view (t.readV 0xF) = c) ∧
      (∀ r, r ≠ x → r ≠ 0xF → t.readV r = s.readV r) ∧ Unchanged [.v] s t :=
  ⟨_, rfl, fun h => by rw [readV_writeResultAndFlag_result h, hres],
    fun h => by rw [readV_writeResultAndFlag_flag h, hflag],
    fun _ => readV_writeResultAndFlag_other, unchanged_writeResultAndFlag⟩

end

/-! The results and the flags (R150, R159, R161). -/

theorem toNat_sumByte (a b : Byte) : (sumByte a b).toNat = (a.toNat + b.toNat) % 256 := BitVec.toNat_ofNat ..

theorem toNat_diffByte (a b : Byte) : (diffByte a b).toNat = (a.toNat + 256 - b.toNat) % 256 := BitVec.toNat_ofNat ..

theorem toNat_shiftRight_one (b : Byte) : (b >>> 1).toNat = b.toNat / 2 := by
  rw [BitVec.toNat_ushiftRight, Nat.shiftRight_one]

theorem toNat_shiftLeft_one (b : Byte) : (b <<< 1).toNat = 2 * b.toNat % 256 := by
  rw [BitVec.toNat_shiftLeft, Nat.shiftLeft_eq, Nat.mul_comm, Nat.pow_one]

theorem flagByte_carryFlag (a b : Byte) : flagByte (carryFlag a b) = if 255 < a.toNat + b.toNat then 1 else 0 := by
  simp only [flagByte, carryFlag_iff]

theorem flagByte_noBorrowFlag (a b : Byte) : flagByte (noBorrowFlag a b) = if b.toNat ≤ a.toNat then 1 else 0 := by
  simp only [flagByte, noBorrowFlag_iff]

theorem toNat_flagByte (f : Bool) : (flagByte f).toNat = f.toNat := by cases f <;> rfl

theorem toNat_flagByte_shiftedOutRight (b : Byte) : (flagByte (shiftedOutRight b)).toNat = b.toNat % 2 := by
  rw [toNat_flagByte, shiftedOutRight, BitVec.getLsbD, Nat.toNat_testBit, Nat.pow_zero, Nat.div_one]

theorem toNat_flagByte_shiftedOutLeft (b : Byte) : (flagByte (shiftedOutLeft b)).toNat = b.toNat / 128 := by
  have hb : b.toNat / 128 < 2 := Nat.div_lt_of_lt_mul b.isLt
  rw [toNat_flagByte, shiftedOutLeft, BitVec.getLsbD, Nat.toNat_testBit, Nat.mod_eq_of_lt hb]

/-- The source of a shift, Vy or Vx as SHIFT_SOURCE says (R159, D6). -/
theorem shiftOperand_eq (s : State) (x y : Nibble) :
    s.shiftOperand x y = if s.cfg.shiftSource = .vy then s.readV y else s.readV x := by
  unfold State.shiftOperand
  cases s.cfg.shiftSource <;> rfl

/-- Settles O31: one register write, of the word's byte. -/
theorem loadImmediateWritesVx : Obligations.LoadImmediateWritesVx := fun s x nn =>
  ⟨decode_encode (.ldImm x nn), _, rfl, fun r => s.readV_writeV x r nn, unchanged_writeV ..⟩

/-- Settles O32: one register write, of the sum in 8 bits. -/
theorem addImmediateSetsNoFlag : Obligations.AddImmediateSetsNoFlag := fun s x nn =>
  ⟨decode_encode (.addImm x nn), _, rfl, by rw [State.readV_writeV_same, toNat_sumByte],
    fun _ => s.readV_writeV_other _, unchanged_writeV ..⟩

/-- Settles O33: one register write each, of Vy and of the bitwise operations on Vx and Vy. -/
theorem logicWritesVxAndNoFlag : Obligations.LogicWritesVxAndNoFlag := fun s x y =>
  ⟨⟨decode_encode (.ldReg x y), _, rfl, fun r => s.readV_writeV x r _, unchanged_writeV ..⟩,
    ⟨decode_encode (.orReg x y), _, rfl, fun _ => s.readV_writeV_other _, unchanged_writeV ..,
      fun _ _ => by rw [State.readV_writeV_same, BitVec.getLsbD_or]⟩,
    ⟨decode_encode (.andReg x y), _, rfl, fun _ => s.readV_writeV_other _, unchanged_writeV ..,
      fun _ _ => by rw [State.readV_writeV_same, BitVec.getLsbD_and]⟩,
    ⟨decode_encode (.xorReg x y), _, rfl, fun _ => s.readV_writeV_other _, unchanged_writeV ..,
      fun _ _ => by rw [State.readV_writeV_same, BitVec.getLsbD_xor]⟩⟩

/-- Settles O34: the rule of `WriteResultAndFlag`, for the sum and its carry. -/
theorem addRegistersSetsCarry : Obligations.AddRegistersSetsCarry := fun _ x y =>
  ⟨decode_encode (.addReg x y), next_writeResultAndFlag id (toNat_sumByte ..) (flagByte_carryFlag ..)⟩

/-- Settles O35: the rule of `WriteResultAndFlag`, for the differences and their no-borrow flags. -/
theorem subtractionsSetNoBorrow : Obligations.SubtractionsSetNoBorrow := fun _ x y =>
  ⟨⟨decode_encode (.sub x y), next_writeResultAndFlag id (toNat_diffByte ..) (flagByte_noBorrowFlag ..)⟩,
    ⟨decode_encode (.subn x y), next_writeResultAndFlag id (toNat_diffByte ..) (flagByte_noBorrowFlag ..)⟩⟩

/-- Settles O36: the rule of `WriteResultAndFlag`, for the shifted source and the bit shifted out. -/
theorem shiftsSetTheBitShiftedOut : Obligations.ShiftsSetTheBitShiftedOut := by
  intro s x y src hsrc
  rw [← shiftOperand_eq] at hsrc
  subst hsrc
  exact ⟨⟨decode_encode (.shr x y),
      next_writeResultAndFlag BitVec.toNat (toNat_shiftRight_one _) (toNat_flagByte_shiftedOutRight _)⟩,
    ⟨decode_encode (.shl x y),
      next_writeResultAndFlag BitVec.toNat (toNat_shiftLeft_one _) (toNat_flagByte_shiftedOutLeft _)⟩⟩

/-- Settles O37: one register write, of the step's random byte AND the word's byte. -/
theorem randomByteIsMasked : Obligations.RandomByteIsMasked := fun s x nn =>
  ⟨decode_encode (.rnd x nn), _, rfl, fun _ _ => by rw [State.readV_writeV_same, BitVec.getLsbD_and],
    fun _ => s.readV_writeV_other _, unchanged_writeV ..⟩

end Sys2Proof.Machine
end

section
/-! PROOFS. The address register and memory (O38 to O43): an update of I or of memory leaves the rest as it was; an
access beyond memory; the three instructions that access memory where it lies inside. -/

namespace Sys2Proof.Machine

/-- ANNN, FX1E and FX29 change I alone: no V register, hence no flag (R180 to R182). -/
theorem unchanged_setI (s : State) (a : Addr) : Unchanged [.i] s (s.setI a) := by simp [Unchanged]

/-- A store changes memory alone, so I keeps its value (D14). -/
theorem unchanged_setMem (s : State) (m : Memory) : Unchanged [.mem] s (s.setMem m) := by simp [Unchanged]

/-- MemoryOutOfBounds changes the run state alone, to the record of the fault (R242, R247, D16). -/
theorem exec_of_memoryOutOfBounds {i : Instr} {s : State} (h : faultOf i s = some .memoryOutOfBounds) :
    ∃ t, exec i s = .next t ∧ Unchanged [.run] s t ∧
      t.run = .halted ⟨.memoryOutOfBounds, s.pc - 2, some (encode i), some 0x1000⟩ := by
  rcases exec_cases i s with ⟨k, hk, he⟩ | ⟨hnone, -⟩
  · cases h.symm.trans hk
    exact ⟨_, he, unchanged_raise s .memoryOutOfBounds i _, rfl⟩
  · cases hnone.symm.trans h

/-- FX65 inside memory loads V0 to Vx from I on (R185). -/
theorem exec_ldVxMem_inside {s : State} (x : Nibble) (h : s.i.toNat + (x.toNat + 1) ≤ 4096) :
    exec (.ldVxMem x) s = .next (s.setRegs (s.loadedRegs x)) :=
  if_pos ((inMemory_iff ..).mpr (.inr h))

section
variable {s : State} {x : Nibble}

/-- FX33 stores nothing below I and above I + 2 (R183). -/
theorem byteAfterStore_ldB_outside {a : Nat} (h : a < s.i.toNat ∨ s.i.toNat + 2 < a) :
    byteAfterStore (.ldB x) s a = s.byteAt a := by
  rw [byteAfterStore, if_neg (by omega), if_neg (by omega), if_neg (by omega)]

/-- FX55 stores Vk at I + k (R184). -/
theorem byteAfterStore_ldMemVx_inside {k : Nibble} (h : k.toNat ≤ x.toNat) :
    byteAfterStore (.ldMemVx x) s (s.i.toNat + k.toNat) = s.readV k := by
  rw [byteAfterStore, if_pos (by omega), Nat.add_sub_cancel_left, BitVec.ofNat_toNat, BitVec.setWidth_eq]

/-- FX55 stores nothing below I and above I + x (R184). -/
theorem byteAfterStore_ldMemVx_outside {a : Nat} (h : a < s.i.toNat ∨ s.i.toNat + x.toNat < a) :
    byteAfterStore (.ldMemVx x) s a = s.byteAt a := by
  rw [byteAfterStore, if_neg (by omega)]

end

/-- A number that is at most a byte is kept by 8 bits. -/
theorem toNat_ofNat_of_le_byte {b : Byte} {n : Nat} (h : n ≤ b.toNat) : (BitVec.ofNat 8 n).toNat = n :=
  (BitVec.toNat_ofNat ..).trans (Nat.mod_eq_of_lt (Nat.lt_of_le_of_lt h b.isLt))

/-- Settles O38: one update of I, to the word's address. -/
theorem loadIndexWritesI : Obligations.LoadIndexWritesI := fun s nnn =>
  ⟨decode_encode (.ldI nnn), _, rfl, rfl, unchanged_setI s nnn⟩

/-- Settles O39: one update of I, to the sum in 12 bits, which is the sum modulo 0x1000. -/
theorem addIndexWrapsWithoutAFlag : Obligations.AddIndexWrapsWithoutAFlag := fun s x =>
  ⟨decode_encode (.addI x), _, rfl, BitVec.toNat_ofNat .., unchanged_setI s _⟩

/-- Settles O40: one update of I; 5 times any byte is below 0x1000, so 12 bits keep it. -/
theorem loadFontAddressUsesTheWholeByte : Obligations.LoadFontAddressUsesTheWholeByte := by
  intro s x
  have hfits : (fontBase + 5 * (s.readV x).toNat) % 2 ^ 12 = 5 * (s.readV x).toNat := by
    have hv := (s.readV x).isLt
    rw [fontBase]
    omega
  exact ⟨decode_encode (.ldF x), _, rfl, (BitVec.toNat_ofNat ..).trans hfits, unchanged_setI s _⟩

/-- Settles O41: inside memory the bytes are those of `byteAfterStore`, and each digit of a byte is at most the byte. -/
theorem storeBcdWritesThreeDigits : Obligations.StoreBcdWritesThreeDigits := by
  intro s x
  refine ⟨decode_encode (.ldB x), fun hin => ?_, fun hout => exec_of_memoryOutOfBounds (if_pos hout)⟩
  obtain ⟨m, he, hbytes⟩ := exec_store s (.inl ⟨x, rfl⟩) (if_neg (Nat.not_le.mpr hin))
  refine ⟨_, he, ?_, ?_, ?_, fun a ha => (hbytes a).trans (byteAfterStore_ldB_outside ha), unchanged_setMem s m⟩
  · rw [hbytes, byteAfterStore, if_pos rfl, toNat_ofNat_of_le_byte (b := s.readV x) (by omega)]
  · rw [hbytes, byteAfterStore, if_neg (by omega), if_pos rfl, toNat_ofNat_of_le_byte (b := s.readV x) (by omega)]
  · rw [hbytes, byteAfterStore, if_neg (by omega), if_neg (by omega), if_pos rfl,
      toNat_ofNat_of_le_byte (b := s.readV x) (by omega)]

/-- Settles O42: inside memory the bytes are those of `byteAfterStore`. -/
theorem registerDumpStoresV0ToVx : Obligations.RegisterDumpStoresV0ToVx := by
  intro s x
  refine ⟨decode_encode (.ldMemVx x), fun hin => ?_, fun hout => exec_of_memoryOutOfBounds (if_pos hout)⟩
  obtain ⟨m, he, hbytes⟩ := exec_store s (.inr ⟨x, rfl⟩) (if_neg (Nat.not_le.mpr hin))
  exact ⟨_, he, fun k hk => (hbytes _).trans (byteAfterStore_ldMemVx_inside hk),
    fun a ha => (hbytes a).trans (byteAfterStore_ldMemVx_outside ha), unchanged_setMem s m⟩

/-- Settles O43: inside memory the registers are those of `State.loadedRegs`. -/
theorem registerLoadFillsV0ToVx : Obligations.RegisterLoadFillsV0ToVx := fun s x =>
  ⟨decode_encode (.ldVxMem x),
    fun hin => ⟨_, exec_ldVxMem_inside x hin, s.readV_loadedRegs x, unchanged_setRegs s _⟩,
    fun hout => exec_of_memoryOutOfBounds (if_pos hout)⟩

end Sys2Proof.Machine
end

section
/-! PROOFS. The framebuffer (O45 to O47): the pixels of one draw and its collision flag by the pixels that the sprite
covers, and what a second draw of the same sprite does. -/

namespace Sys2Proof.Machine

/-- CLS changes the framebuffer alone (R202). -/
theorem unchanged_setFb (s : State) (f : Frame) : Unchanged [.fb] s (s.setFb f) := by simp [Unchanged]

/-- A draw changes the framebuffer and registers alone (R203). -/
theorem unchanged_setFb_writeV (s : State) (f : Frame) (x : Nibble) (b : Byte) :
    Unchanged [.fb, .v] s ((s.setFb f).writeV x b) := by
  simp [Unchanged]

/-- Coordinates wrap at the edges (R200). -/
theorem Frame.pixel_mod (f : Frame) (c r : Nat) : f.pixel (c % 64) (r % 32) = f.pixel c r := by simp [Frame.pixel]

/-- Framebuffers whose pixels agree on the grid are equal. -/
theorem Frame.ext_grid {f g : Frame} (h : ∀ c < 64, ∀ r < 32, f.pixel c r = g.pixel c r) : f = g :=
  Frame.ext_pixel fun c r => by
    rw [← f.pixel_mod, ← g.pixel_mod]
    exact h _ (Nat.mod_lt c (by decide)) _ (Nat.mod_lt r (by decide))

/-- A flag that says whether `p` holds is 1 where it holds and 0 where it does not (R22). -/
theorem flagByte_of_iff {f : Bool} {p : Prop} (h : f = true ↔ p) :
    (p → flagByte f = 1) ∧ (¬ p → flagByte f = 0) :=
  ⟨fun hp => if_pos (h.mpr hp), fun hp => if_neg (mt h.mp hp)⟩

section
variable {s : State} {x y n : Nibble} {c r : Nat}

/-- The pixels that a draw toggles are those that the sprite covers (R201, R203). -/
theorem mem_spritePixels_iff_covers :
    (c, r) ∈ spritePixels (s.readV x).toNat (s.readV y).toNat 0 (s.spriteRows n) ↔ spriteCovers s x y n c r := by
  simp only [mem_spritePixels, State.spriteRows_getElem?, Option.ite_none_right_eq_some, Option.some.injEq,
    Prod.mk.injEq, Nat.zero_add, spriteCovers]
  constructor
  · rintro ⟨k, _, ⟨hk, rfl⟩, j, hj, hb, rfl, rfl⟩
    exact ⟨k, hk, j, hj, hb, rfl, rfl⟩
  · rintro ⟨k, hk, j, hj, hb, rfl, rfl⟩
    exact ⟨k, _, ⟨hk, rfl⟩, j, hj, hb, rfl, rfl⟩

/-- A sprite toggles no pixel twice, so `foldl_togglePixel` speaks of every draw (R203). -/
theorem drawn_spec (s : State) (x y n : Nibble) :
    (∀ c < 64, ∀ r < 32, (s.drawn x y n).1.pixel c r =
      if (c, r) ∈ spritePixels (s.readV x).toNat (s.readV y).toNat 0 (s.spriteRows n)
      then !s.fb.pixel c r else s.fb.pixel c r) ∧
    ((s.drawn x y n).2 = true ↔
      ∃ p ∈ spritePixels (s.readV x).toNat (s.readV y).toNat 0 (s.spriteRows n), s.fb.pixel p.1 p.2 = true) := by
  have hlen : (s.spriteRows n).length ≤ 31 := by
    rw [State.spriteRows, List.length_map, List.length_range]
    omega
  obtain ⟨hpixel, hflag⟩ :=
    foldl_togglePixel _ (spritePixels_nodup _ _ _ _ hlen) (fun _ => spritePixels_lt) (s.fb, false)
  exact ⟨hpixel, hflag.trans (or_iff_right Bool.false_ne_true)⟩

/-- A pixel that the sprite covers flips (R203). -/
theorem drawn_pixel_of_covers (h : spriteCovers s x y n c r) (hc : c < 64) (hr : r < 32) :
    (s.drawn x y n).1.pixel c r = !s.fb.pixel c r :=
  ((drawn_spec s x y n).1 c hc r hr).trans (if_pos (mem_spritePixels_iff_covers.mpr h))

/-- A pixel that the sprite does not cover stays as it was (R203). -/
theorem drawn_pixel_of_not_covers (h : ¬ spriteCovers s x y n c r) (hc : c < 64) (hr : r < 32) :
    (s.drawn x y n).1.pixel c r = s.fb.pixel c r :=
  ((drawn_spec s x y n).1 c hc r hr).trans (if_neg (mt mem_spritePixels_iff_covers.mp h))

/-- A draw reports a collision exactly when a pixel that the sprite covers was set (R203). -/
theorem drawn_collision_iff :
    (s.drawn x y n).2 = true ↔ ∃ c < 64, ∃ r < 32, spriteCovers s x y n c r ∧ s.fb.pixel c r = true := by
  rw [(drawn_spec s x y n).2]
  constructor
  · rintro ⟨⟨c, r⟩, hp, hset⟩
    obtain ⟨hc, hr⟩ := spritePixels_lt hp
    exact ⟨c, hc, r, hr, mem_spritePixels_iff_covers.mp hp, hset⟩
  · rintro ⟨c, -, r, -, hcov, hset⟩
    exact ⟨(c, r), mem_spritePixels_iff_covers.mpr hcov, hset⟩

/-- A pixel that is set after a draw was clear before it exactly when the sprite covers it. -/
theorem covers_iff_clear_before (hc : c < 64) (hr : r < 32) (hset : (s.drawn x y n).1.pixel c r = true) :
    spriteCovers s x y n c r ↔ s.fb.pixel c r = false := by
  by_cases h : spriteCovers s x y n c r
  · rw [drawn_pixel_of_covers h hc hr, Bool.not_eq_true'] at hset
    exact iff_of_true h hset
  · rw [drawn_pixel_of_not_covers h hc hr] at hset
    simp [h, hset]

/-- A draw whose rows all lie inside memory, or that has no row (R59, R203). -/
theorem exec_drw_inside (h : n = 0 ∨ s.i.toNat + n.toNat - 1 < 4096) :
    exec (.drw x y n) s = .next ((s.setFb (s.drawn x y n).1).writeV vf (flagByte (s.drawn x y n).2)) := by
  refine if_pos ((inMemory_iff ..).mpr ?_)
  rcases h with rfl | h
  · exact .inl rfl
  · exact .inr (by rw [State.base]; omega)

/-! A second draw of the same sprite from the state that the first one left: `f` is the framebuffer and `b` the flag. -/

variable {f : Frame} {b : Byte}

/-- The sprite covers the same pixels in the second draw, for neither register that places it is VF (R204 (a)). -/
theorem spriteCovers_setFb_writeV_vf (hx : x ≠ vf) (hy : y ≠ vf) :
    spriteCovers ((s.setFb f).writeV vf b) x y n c r ↔ spriteCovers s x y n c r := by
  simp only [spriteCovers, State.readV_writeV_other _ _ hx, State.readV_writeV_other _ _ hy, State.setFb_readV,
    State.writeV_byteAt, State.setFb_byteAt, State.writeV_i, State.setFb_i]

/-- The second draw flips back each pixel that the first one flipped (R204 (a)). -/
theorem drawn_drawn_frame (hx : x ≠ vf) (hy : y ≠ vf) :
    (((s.setFb (s.drawn x y n).1).writeV vf b).drawn x y n).1 = s.fb := by
  refine Frame.ext_grid fun c hc r hr => ?_
  by_cases h : spriteCovers s x y n c r
  · rw [drawn_pixel_of_covers ((spriteCovers_setFb_writeV_vf hx hy).mpr h) hc hr, State.writeV_fb, State.setFb_fb,
      drawn_pixel_of_covers h hc hr, Bool.not_not]
  · rw [drawn_pixel_of_not_covers (mt (spriteCovers_setFb_writeV_vf hx hy).mp h) hc hr, State.writeV_fb,
      State.setFb_fb, drawn_pixel_of_not_covers h hc hr]

/-- The second draw reports a collision exactly when the first one turned a pixel from clear to set (R204 (a)). -/
theorem drawn_drawn_collision_iff (hx : x ≠ vf) (hy : y ≠ vf) :
    (((s.setFb (s.drawn x y n).1).writeV vf b).drawn x y n).2 = true ↔
      ∃ c r, s.fb.pixel c r = false ∧ (s.drawn x y n).1.pixel c r = true := by
  simp only [drawn_collision_iff, spriteCovers_setFb_writeV_vf hx hy, State.writeV_fb, State.setFb_fb]
  constructor
  · rintro ⟨c, hc, r, hr, hcov, hset⟩
    exact ⟨c, r, (covers_iff_clear_before hc hr hset).mp hcov, hset⟩
  · rintro ⟨c, r, hclear, hset⟩
    have hc : c % 64 < 64 := Nat.mod_lt c (by decide)
    have hr : r % 32 < 32 := Nat.mod_lt r (by decide)
    rw [← Frame.pixel_mod] at hclear hset
    exact ⟨_, hc, _, hr, (covers_iff_clear_before hc hr hset).mpr hclear, hset⟩

end

/-- Settles O45: the new framebuffer is the blank one. -/
theorem clearScreenClearsEveryPixel : Obligations.ClearScreenClearsEveryPixel := fun s =>
  ⟨decode_encode .cls, _, rfl, Frame.pixel_blank, unchanged_setFb s _⟩

/-- Settles O46: inside memory the framebuffer and the flag are those of `State.drawn`, pixel by pixel. -/
theorem drawXorsTheSpriteAndReportsCollision : Obligations.DrawXorsTheSpriteAndReportsCollision := by
  intro s x y n
  refine ⟨decode_encode (.drw x y n), fun hin => ?_, fun hn hout => exec_of_memoryOutOfBounds (if_pos ⟨?_, hout⟩)⟩
  · obtain ⟨hcollision, hnone⟩ := flagByte_of_iff (drawn_collision_iff (s := s) (x := x) (y := y) (n := n))
    refine ⟨_, exec_drw_inside hin,
      fun c hc r hr => ⟨fun h => drawn_pixel_of_covers h hc hr, fun h => drawn_pixel_of_not_covers h hc hr⟩,
      fun h => (State.readV_writeV_same ..).trans (hcollision h),
      fun h => (State.readV_writeV_same ..).trans (hnone ?_),
      fun r hr => State.readV_writeV_other _ _ hr, unchanged_setFb_writeV ..⟩
    rintro ⟨c, hc, r, hr, hcov, hset⟩
    exact Bool.false_ne_true ((h c hc r hr hcov).symm.trans hset)
  · exact Nat.pos_of_ne_zero fun h => hn (BitVec.eq_of_toNat_eq h)

/-- Settles O47: the second draw covers the pixels of the first, so it flips each of them back. -/
theorem drawingTwiceRestoresTheFramebuffer : Obligations.DrawingTwiceRestoresTheFramebuffer := by
  intro s t x y n hx hy hin he
  cases (exec_drw_inside hin).symm.trans he
  obtain ⟨hcollision, hnone⟩ := flagByte_of_iff (drawn_drawn_collision_iff (s := s) (n := n) hx hy)
  refine ⟨_, exec_drw_inside hin, drawn_drawn_frame hx hy,
    fun h => (State.readV_writeV_same ..).trans (hcollision h),
    fun h => (State.readV_writeV_same ..).trans (hnone ?_)⟩
  rintro ⟨c, r, hclear, hset⟩
  exact Bool.false_ne_true ((h c r hclear).symm.trans hset)

end Sys2Proof.Machine
end

section
/-! PROOFS. The keypad and the timers (O9 to O11, O48 to O52): a CPU step that waits for a key, without a newly pressed
one, with one, and many of them; the key that SKP and SKNP sample; the sound timer over many ticks. -/

namespace Sys2Proof.Machine

/-- A run of a machine, one step at a time. -/
theorem run_succ_of_next {M : Host.Core} {s t : M.State} (n : Nat) (h : M.step s = .next t) :
    M.run (n + 1) s = M.run n t := by
  rw [Host.Core.run, h]

/-! What the updates of this family leave unchanged. -/

theorem unchanged_writeV_setRun (s : State) (x : Nibble) (b : Byte) (r : Run) :
    Unchanged [.v, .run] s ((s.writeV x b).setRun r) := by simp [Unchanged]

theorem unchanged_setDt (s : State) (b : Byte) : Unchanged [.dt] s (s.setDt b) := by simp [Unchanged]

theorem unchanged_setSt (s : State) (b : Byte) : Unchanged [.st] s (s.setSt b) := by simp [Unchanged]

section
variable {s : State} {x : Nibble}

/-- The CPU's turn in AwaitingKey is the wait resolution and the end of the step (R110, R225). -/
theorem step_waitResolve (ht : s.env.turn = .cpu) (hr : s.run = .awaitingKey x) :
    step s = .next (endCpuStep (waitResolve x s)) := by
  simp only [step, ht, hr]

/-- A CPU step that does not halt the machine keeps its keypad snapshot (R110, D12). -/
theorem endCpuStep_of_not_halted (hr : s.run.isHalted = false) :
    endCpuStep s = (s.setKeysPrev s.env.keys).nextInputs := by
  rw [endCpuStep_eq, hr]
  rfl

theorem mem_newKeys_iff_newlyPressed {k : Nibble} : k ∈ s.newKeys ↔ newlyPressed s k := s.mem_newKeys k

/-- The newly pressed keys are listed in rising order (R225). -/
theorem newKeys_pairwise_lt : s.newKeys.Pairwise fun j k => j.toNat < k.toNat :=
  List.Pairwise.filter _ (by decide : allNibbles.Pairwise fun j k => j.toNat < k.toNat)

/-- The first key of the list is the least newly pressed one (R225, D11). -/
theorem head_newKeys_le {k j : Nibble} {ks : List Nibble} (h : s.newKeys = k :: ks) (hj : newlyPressed s j) :
    k.toNat ≤ j.toNat := by
  have hsorted := h ▸ newKeys_pairwise_lt (s := s)
  rcases List.mem_cons.mp (h ▸ mem_newKeys_iff_newlyPressed.mpr hj) with rfl | hmem
  · exact Nat.le_refl _
  · exact Nat.le_of_lt (List.rel_of_pairwise_cons hsorted hmem)

theorem chosenKey_of_newlyPressed (k : Nibble) (h : newlyPressed s s.env.choice) : s.chosenKey k = s.env.choice :=
  if_pos (mem_newKeys_iff_newlyPressed.mpr h)

theorem chosenKey_of_not_newlyPressed (k : Nibble) (h : ¬ newlyPressed s s.env.choice) : s.chosenKey k = k :=
  if_neg (mt mem_newKeys_iff_newlyPressed.mp h)

/-- The key that ends a wait is one of those newly pressed (R225). -/
theorem newlyPressed_chosenKey {k : Nibble} (hk : newlyPressed s k) : newlyPressed s (s.chosenKey k) := by
  by_cases h : newlyPressed s s.env.choice
  · rwa [chosenKey_of_newlyPressed k h]
  · rwa [chosenKey_of_not_newlyPressed k h]

/-- The whole state after a CPU step that waits and finds no key newly pressed (R225). -/
theorem step_wait_goes_on (ht : s.env.turn = .cpu) (hr : s.run = .awaitingKey x) (hnone : ∀ k, ¬ newlyPressed s k) :
    step s = .next { s with keysPrev := s.env.keys, script := s.script.tail, draws := s.draws + 1 } := by
  have hnil : s.newKeys = [] :=
    List.eq_nil_iff_forall_not_mem.mpr fun k hk => hnone k (mem_newKeys_iff_newlyPressed.mp hk)
  have hwait : waitResolve x s = s := by simp only [waitResolve, hnil]
  rw [step_waitResolve ht hr, hwait, endCpuStep_of_not_halted (by rw [hr]; rfl)]
  rfl

/-- The whole state after a CPU step that waits and finds `k` the least key newly pressed (R225). -/
theorem step_wait_ends {k : Nibble} {ks : List Nibble} (ht : s.env.turn = .cpu) (hr : s.run = .awaitingKey x)
    (h : s.newKeys = k :: ks) :
    step s = .next { (s.writeV x ((s.chosenKey k).setWidth 8)).setRun .running with
      keysPrev := s.env.keys
      script := s.script.tail
      draws := s.draws + 1 } := by
  have hwait : waitResolve x s = (s.writeV x ((s.chosenKey k).setWidth 8)).setRun .running := by
    simp only [waitResolve, h]
  rw [step_waitResolve ht hr, hwait, endCpuStep_of_not_halted rfl]
  rfl

/-- The key of a byte's low nibble (R220). -/
theorem setWidth_four_eq_ofNat_mod (b : Byte) : b.setWidth 4 = BitVec.ofNat 4 (b.toNat % 16) :=
  BitVec.eq_of_toNat_eq (by simp)

/-- `KeyPressed` in closed form: the key of the low nibble, or the step's unconstrained boolean for an index of 16 or
more under KEY_OOB = DRAW (R220, D10). -/
theorem keyPressed_eq (b : Byte) :
    s.keyPressed b = if b.toNat < 16 ∨ s.cfg.keyOob = .lowNibble
      then keyDown s.env.keys (BitVec.ofNat 4 (b.toNat % 16)) else s.env.oobKey := by
  rw [State.keyPressed, setWidth_four_eq_ofNat_mod]
  by_cases hb : b.toNat < 16
  · rw [if_pos hb, if_pos (.inl hb)]
  · cases s.cfg.keyOob <;> simp [hb]

/-- A skip taken where the flag is clear (R222). -/
theorem skipIf_not_pc (c : Bool) : (s.skipIf (!c)).pc = if c = true then s.pc else s.pc + 2 := by cases c <;> rfl

/-- One tick takes 1 off a timer that is not 0 (R251). -/
theorem toNat_tickDown (b : Byte) : (tickDown b).toNat = b.toNat - 1 := by
  unfold tickDown
  split
  · next h => rw [h]; rfl
  · next h => exact BitVec.toNat_sub_of_le (by bv_omega)

/-- `n` ticks take `n` off the sound timer, down to 0 (R251). -/
theorem toNat_st_iterate_timerTick (n : Nat) (s : State) : (timerTick^[n] s).st.toNat = s.st.toNat - n := by
  induction n with
  | zero => rfl
  | succ n ih =>
    calc (timerTick^[n + 1] s).st.toNat
        = (tickDown (timerTick^[n] s).st).toNat := by rw [Function.iterate_succ_apply']; rfl
      _ = s.st.toNat - n - 1 := by rw [toNat_tickDown, ih]
      _ = s.st.toNat - (n + 1) := Nat.sub_sub ..

/-- Sound is active for as many ticks as the sound timer holds (R227, R256). -/
theorem soundActive_iterate_timerTick (n : Nat) (s : State) :
    (timerTick^[n] s).soundActive = decide (n < s.st.toNat) := by
  rw [State.soundActive, toNat_st_iterate_timerTick, decide_eq_decide]
  exact Nat.sub_pos_iff_lt

end

/-- Settles O9: no key newly pressed leaves the wait as it is, so this is `step_wait_goes_on`. -/
theorem waitGoesOnWithoutANewKey : Obligations.WaitGoesOnWithoutANewKey :=
  fun _ _ ht hr hnone => step_wait_goes_on ht hr hnone

/-- Settles O10: the list of the newly pressed keys is not empty, and its first key is the least. -/
theorem newKeyEndsTheWait : Obligations.NewKeyEndsTheWait := by
  intro s x k₀ ht hr hk₀
  obtain ⟨k, ks, h⟩ := List.exists_cons_of_ne_nil (List.ne_nil_of_mem (mem_newKeys_iff_newlyPressed.mpr hk₀))
  have hk : newlyPressed s k := mem_newKeys_iff_newlyPressed.mp (h ▸ List.mem_cons_self)
  refine ⟨s.chosenKey k, _, step_wait_ends ht hr h, newlyPressed_chosenKey hk, chosenKey_of_newlyPressed k,
    fun hchoice j hj => ?_, fun r => s.readV_writeV x r _, rfl, rfl, unchanged_writeV_setRun ..⟩
  rw [chosenKey_of_not_newlyPressed k hchoice]
  exact head_newKeys_le h hj

/-- Settles O11, by induction on the inputs: a step whose snapshot presses nothing new goes on waiting, and its snapshot
is the one that the next step compares with. -/
theorem waitLastsWhileNoKeyIsPressed : Obligations.WaitLastsWhileNoKeyIsPressed := by
  intro es
  induction es with
  | nil =>
    intro s x _ hscript _ _
    exact congrArg (fun script => Host.Outcome.next { s with script := script }) hscript
  | cons e es ih =>
    intro s x hr hscript hcpu hquiet
    obtain ⟨hheld, hquiet⟩ := hquiet
    have henv : s.env = e := by simp only [State.env, hscript]
    have hnone : ∀ k, ¬ newlyPressed s k := by
      rintro k ⟨hdown, hup⟩
      exact Bool.false_ne_true (hup.symm.trans (hheld k (henv ▸ hdown)))
    have hstep := step_wait_goes_on (henv ▸ hcpu e List.mem_cons_self) hr hnone
    rw [henv, hscript] at hstep
    have hrest := ih { s with keysPrev := e.keys, script := es, draws := s.draws + 1 } x hr rfl
      (fun f hf => hcpu f (List.mem_cons_of_mem e hf)) hquiet
    have hdraws : s.draws + 1 + es.length = s.draws + (es.length + 1) := by omega
    rw [List.length_cons, List.map_cons, List.getLastD_cons, ← hdraws]
    exact (run_succ_of_next (M := core) es.length hstep).trans hrest

/-- Settles O48: both instructions skip on `KeyPressed` of Vx. -/
theorem keySkipsSampleTheSnapshot : Obligations.KeySkipsSampleTheSnapshot := by
  intro s x down hdown
  rw [← keyPressed_eq] at hdown
  subst hdown
  exact ⟨⟨decode_encode (.skp x), _, rfl, State.skipIf_pc .., unchanged_setPc s _⟩,
    ⟨decode_encode (.sknp x), _, rfl, skipIf_not_pc _, unchanged_setPc s _⟩⟩

/-- Settles O49: one register write, of DT. -/
theorem readDelayTimerWritesVx : Obligations.ReadDelayTimerWritesVx := fun s x =>
  ⟨decode_encode (.ldVxDt x), _, rfl, fun r => s.readV_writeV x r s.dt, unchanged_writeV ..⟩

/-- Settles O50: one update of the run state. -/
theorem waitForKeyStartsAWait : Obligations.WaitForKeyStartsAWait := fun s x =>
  ⟨decode_encode (.ldVxK x), _, rfl, rfl, (Unchanged.refl _ s).setRun (by simp) _⟩

/-- Settles O51: one update of DT. -/
theorem setDelayTimerCopiesVx : Obligations.SetDelayTimerCopiesVx := fun s x =>
  ⟨decode_encode (.ldDtVx x), _, rfl, rfl, unchanged_setDt s _⟩

/-- Settles O52: one update of ST, and sound over the ticks after it is `soundActive_iterate_timerTick`. -/
theorem setSoundTimerSoundsForVxTicks : Obligations.SetSoundTimerSoundsForVxTicks := fun s x =>
  ⟨decode_encode (.ldStVx x), _, rfl, rfl, unchanged_setSt s _, fun n => soundActive_iterate_timerTick n _⟩

end Sys2Proof.Machine
end

section
/-! PROOFS. Faults and the turns beside the CPU's (O12, O13, O15, O21): an instruction halts the machine through its fault
condition alone; the timer driver's and the host's turns, each as the whole outcome of the step. -/

namespace Sys2Proof.Machine

section
variable {s : State}

/-- An effect does not halt the machine: none but FX0A's wait writes the run state (R36, R247). -/
theorem Effect.run_of_halted {i : Instr} {t : State} {r : FaultRecord} (h : Effect i s t) (hr : t.run = .halted r) :
    s.run = .halted r := by
  cases h with
  | wait => cases hr
  | store | regs | index | jump | skip | ret | call | delay | sound | clear | draw => exact hr

/-- The timer driver's turn in Running and AwaitingKey is one tick (R251, D19). -/
theorem step_timerTick (ht : s.env.turn = .tick) (hr : s.run = .running ∨ ∃ x, s.run = .awaitingKey x) :
    step s = .next (timerTick s).nextInputs := by
  rcases hr with hr | ⟨x, hr⟩ <;> simp only [step, ht, hr]

/-- A tick changes the two timers alone (R251). -/
theorem unchanged_timerTick (s : State) : Unchanged [.dt, .st] s (timerTick s) := by simp [Unchanged, timerTick]

/-- The host's quit in Running and AwaitingKey is `hostQuit` (R246, D20). -/
theorem step_hostQuit (ht : s.env.turn = .quit) (hr : s.run = .running ∨ ∃ x, s.run = .awaitingKey x) :
    step s = .next (hostQuit s).nextInputs := by
  rcases hr with hr | ⟨x, hr⟩ <;> simp only [step, ht, hr]

/-- The host's reset with an image that does not fit is refused, in every run state (R258, D22). -/
theorem step_reset_refused {l : Launch} (ht : s.env.turn = .reset l) (hl : 3584 < l.program.length) :
    step s = .refused .loadRefused := by
  rcases hostReset_cases l s with ⟨h, -⟩ | ⟨-, h⟩
  · omega
  · simp only [step, ht, h, mapNext]

end

/-- Settles O21: the two cases of `exec_cases` are the two of the statement; every kind raised is a fatal one, and no
effect halts the machine. -/
theorem faultsAreExactAndPrecise : Obligations.FaultsAreExactAndPrecise := by
  intro i s
  rcases exec_cases i s with ⟨k, hk, he⟩ | ⟨hnone, t, he, heffect⟩
  · rw [hk]
    exact ⟨faultOf_fatal hk, he⟩
  · rw [hnone]
    exact ⟨t, he, fun _ => heffect.run_of_halted⟩

/-- Settles O12: the turn is one tick, whose timers are `toNat_tickDown` and whose frame is `unchanged_timerTick`. -/
theorem tickDecrementsBothTimers : Obligations.TickDecrementsBothTimers := fun s ht hr =>
  ⟨_, step_timerTick ht hr, toNat_tickDown s.dt, toNat_tickDown s.st, unchanged_timerTick s⟩

/-- Settles O13: this is `step_hostQuit`, the updates of `hostQuit` written out. -/
theorem quitTerminatesCleanly : Obligations.QuitTerminatesCleanly := fun _ ht hr => step_hostQuit ht hr

/-- Settles O15: this is `step_reset_refused`. -/
theorem oversizedImageIsRefused : Obligations.OversizedImageIsRefused := fun _ _ ht hl => step_reset_refused ht hl

end Sys2Proof.Machine
end
